-- ==== Sys2Proof/Syntax.lean ====
section
/-! DEFINITION. The five commands of the codec block, one constructor per row of spec/opcode_table.json (30_encoding.md R51). -/

namespace Sys2Proof

/-- A command. It names nothing but its operation: every operand is implicit (30_encoding.md R50, R52). -/
inductive Instr where
  /-- `HEXDEC`, word 0x01: hex text in `SRCA` to bytes (40_hex.md R72). -/
  | hexdec
  /-- `HEXENC`, word 0x02: bytes in `SRCA` to hex text (40_hex.md R70). -/
  | hexenc
  /-- `B64ENC`, word 0x03: bytes in `SRCA` to base64 text (41_base64_encode.md R93). -/
  | b64enc
  /-- `B64DEC`, word 0x04: base64 text in `SRCA` to bytes (42_base64_decode.md R112). -/
  | b64dec
  /-- `XOR`, word 0x05: byte-wise exclusive-or of `SRCA` and `SRCB` (43_xor.md R122). -/
  | xor
  deriving DecidableEq, Repr

end Sys2Proof
end

