-- ==== Sys2Proof/Word.lean ====
section
/-! DEFINITION. The value types of the codec block: byte, nibble, sextet (00_scope.md R4). -/

namespace Sys2Proof

/-- An 8-bit unsigned value, also a character held as its ASCII code (R4, R5). -/
abbrev Byte := BitVec 8

/-- A 4-bit half of a byte (R4). -/
abbrev Nibble := BitVec 4

/-- A 6-bit base64 value (R4). -/
abbrev Sextet := BitVec 6

end Sys2Proof
end

