-- ==== Sys2Proof/Decode.lean ====
section
/-! DEFINITION. The command word: decoder, total on all 256 words and rejecting by name, and encoder (30_encoding.md R50 to R55). -/

namespace Sys2Proof

/-- Why a command word is reserved (30_encoding.md R53). -/
inductive DecodeReject where
  /-- A bit of `rsv`, bits 7:3, is set. -/
  | reservedBits
  /-- `rsv` is zero and `op` is 0, 6 or 7. -/
  | reservedOp
  deriving DecidableEq, Repr

/-- Field `rsv`, bits 7:3 of a command word (R50). -/
def rsvField (w : Byte) : BitVec 5 := w.extractLsb' 3 5

/-- Field `op`, bits 2:0 of a command word (R50). -/
def opField (w : Byte) : BitVec 3 := w.extractLsb' 0 3

/-- The opcode map on `op` (R51). -/
def decodeOp (op : BitVec 3) : Except DecodeReject Instr :=
  match op.toNat with
  | 1 => .ok .hexdec
  | 2 => .ok .hexenc
  | 3 => .ok .b64enc
  | 4 => .ok .b64dec
  | 5 => .ok .xor
  | _ => .error .reservedOp

/-- The command a word encodes, or why it is reserved (R51, R53). -/
def decode (w : Byte) : Except DecodeReject Instr :=
  if rsvField w = 0#5 then decodeOp (opField w) else .error .reservedBits

/-- The word a command has: `rsv` zero above `op` (R50, R51). -/
def encode (i : Instr) : Byte :=
  let op : BitVec 3 := match i with
    | .hexdec => 1#3
    | .hexenc => 2#3
    | .b64enc => 3#3
    | .b64dec => 4#3
    | .xor => 5#3
  (0#5) ++ op

/-- The command word whose low `nbits` bits are those of `w`; the bits above are zero. A command is exactly one
8-bit word (R55), so bits above the eighth are not part of it. -/
def tableWord (nbits w : Nat) : Byte := BitVec.ofNat 8 (w % 2 ^ nbits)

/-- The command the decoder reads from a word numbered as the opcode table numbers it; a row longer than the one
8-bit word of R55 is none. -/
def decodeTableWord (nbits w : Nat) : Option Instr :=
  if nbits ≤ 8 then
    match decode (tableWord nbits w) with
    | .ok i => some i
    | .error _ => none
  else none

end Sys2Proof
end

