-- ==== Sys2Proof/Config.lean ====
section
/-! DEFINITION. What an implementation fixes (00_scope.md R9) and the free values (93_implementation_defined.md U1, U2). -/

namespace Sys2Proof.Config

/-- The byte that the `n`-th read of an unspecified byte returns: a free value, nothing constrains it
(93_implementation_defined.md U1, U2; log entry 5). -/
opaque freeByte : Nat → Byte

/-- The capacity in bytes of each source buffer that `State.reset` is given. DESIGN CHOICE (log entry 1): R9 leaves
`CAP_IN` open; 128 is the configuration of the spec's own programs P1 to P5. No operation of the machine reads this
constant: all read the state's own `capIn`. -/
def resetCapIn : Nat := 128

/-- `CAP_OUT = 2 * CAP_IN`, the capacity in bytes of `DST` (R9). -/
def capOut (capIn : Nat) : Nat := 2 * capIn

/-- `LEN_W`, the width in bits of `LENA`, `LENB`, `LENO`, `ERRPOS`: the least `w` with `2^w > 2 * CAP_IN` (R9). -/
def lenW (capIn : Nat) : Nat := Nat.log2 (2 * capIn) + 1

end Sys2Proof.Config
end

