-- ==== Sys2Proof/Machine/Action.lean ====
section
/-! DEFINITION. The host's side of the port: the eight host actions and what they return (20_memory.md R30). -/

namespace Sys2Proof.Machine

/-- The two source buffers (10_state.md R22, R23). -/
inductive Buf where
  /-- `SRCA` with its length `LENA`. -/
  | a
  /-- `SRCB` with its length `LENB`. -/
  | b
  deriving DecidableEq, Repr

/-- One action of the host: there is no other way to change or observe the block's state (20_memory.md R30).
Indices, register numbers and values are natural numbers here; which of them are admitted is `HostAction.wf`. -/
inductive HostAction where
  /-- `RESET` (70_reset_and_hazards.md R155). -/
  | reset
  /-- `WRA i, v` (R31). -/
  | wra (i : Nat) (v : Byte)
  /-- `WRB i, v` (R31). -/
  | wrb (i : Nat) (v : Byte)
  /-- `RDA i` (R32). -/
  | rda (i : Nat)
  /-- `RDB i` (R32). -/
  | rdb (i : Nat)
  /-- `RDO i` (R33). -/
  | rdo (i : Nat)
  /-- `WRREG r, v` (R34); with `r = 0` it starts a command. -/
  | wrreg (r : Nat) (v : Nat)
  /-- `RDREG r` (R35). -/
  | rdreg (r : Nat)
  deriving DecidableEq, Repr

/-- A value a host action returns (20_memory.md R30, column "returns"). -/
inductive Reply where
  /-- A buffer byte, or an 8-bit register. -/
  | byte (v : Byte)
  /-- A `LEN_W`-bit register, as the natural number it holds. -/
  | len (v : Nat)
  deriving DecidableEq, Repr

end Sys2Proof.Machine
end

