-- ==== Sys2Proof/Machine/State.lean ====
section
/-! DEFINITION. The state of one codec block: the ten items of 10_state.md R28, and four fields of the model's own (INVENTORY.md, State). -/

namespace Sys2Proof.Machine

/-- A byte memory: the bytes that hold a specified value, by strictly rising index. An index that is not listed is
unspecified (10_state.md R22 to R24; 70_reset_and_hazards.md R157). -/
abbrev Memory := List Host.Cell

/-- The machine state. `cmd` to `dst` are the ten items of R28. The length registers hold `LEN_W`-bit natural
numbers (45_arithmetic_and_other_families.md R126; log entry 2). -/
structure State where
  /-- `CMD`, register 0 (R13). -/
  cmd : Byte
  /-- `STATUS`, register 1 (R14): bit 0 `DONE`, bits 3:1 `ERR`. -/
  status : Byte
  /-- `LENA`, register 2 (R17). -/
  lena : Nat
  /-- `LENB`, register 3 (R18). -/
  lenb : Nat
  /-- `LENO`, register 4 (R19). -/
  leno : Nat
  /-- `ERRPOS`, register 5 (R20). -/
  errpos : Nat
  /-- `ERRVAL`, register 6 (R21). -/
  errval : Byte
  /-- `SRCA` (R22): the bytes the host has written since reset. -/
  srca : Memory
  /-- `SRCB` (R23): the bytes the host has written since reset. -/
  srcb : Memory
  /-- `DST` (R24): the output of the last command. -/
  dst : Memory
  /-- The model's own: the open parameter `CAP_IN` of this block (00_scope.md R9; log entry 1). No step changes it. -/
  capIn : Nat
  /-- The model's own: the host's actions in issue order that the block has not taken yet (20_memory.md R43; log entry 3). -/
  pending : List HostAction
  /-- The model's own: what the host's reads returned so far, oldest first (20_memory.md R30; log entry 4). -/
  replies : List Reply
  /-- The model's own: how many free bytes have been drawn (93_implementation_defined.md U1, U2; log entry 5). -/
  draws : Nat
  deriving DecidableEq, Repr

/-- Why a step can stop with a fault: never. Every command completes (00_scope.md R8) and an error is an outcome left
in `STATUS`, not a trap (60_exceptions.md R136), so there is no constructor. -/
inductive Fault where
  deriving DecidableEq, Repr

/-- Why a step can be refused. -/
inductive Refusal where
  /-- Raised by `exec`'s arm of an instruction without a meaning (no arm of this model). Safe. -/
  | notModelled (mnemonic : String)
  /-- Raised by `WRA`, `WRB`, `RDA`, `RDB` with an index at or above `CAP_IN` and by `RDO` with one at or above
  `CAP_OUT`: not admitted, the block gives it no meaning (20_memory.md R31 to R33; 93_implementation_defined.md U5). Safe. -/
  | indexOutOfRange
  /-- Raised by `WRREG`, `RDREG` with a register number of 7 or above: not admitted (20_memory.md R34, R35; U5). Safe. -/
  | noSuchRegister
  /-- Raised by `WRREG` with a value wider than the register, which cannot be presented (20_memory.md R34). Safe. -/
  | valueTooWide
  deriving DecidableEq, Repr

/-- A block with source buffers of `capIn` bytes right after reset (70_reset_and_hazards.md R156, R157): every register zero,
no buffer byte specified, nothing pending. -/
def State.resetWith (capIn : Nat) : State :=
  { cmd := 0#8, status := 0#8, lena := 0, lenb := 0, leno := 0, errpos := 0, errval := 0#8,
    srca := [], srcb := [], dst := [], capIn := capIn, pending := [], replies := [], draws := 0 }

/-- The machine right after reset (R156, R157), with the `CAP_IN` of `Config.resetCapIn` (log entry 1). -/
def State.reset : State := State.resetWith Config.resetCapIn

end Sys2Proof.Machine
end

