-- ==== Sys2Proof/Machine/Flags.lean ====
section
/-! DEFINITION. The error kinds and the two flags of `STATUS` (10_state.md R14 to R16, R29; 60_exceptions.md R130). -/

namespace Sys2Proof.Machine

/-- An error a command can end with, with the detail the document gives it (60_exceptions.md R130 to R135). -/
inductive CodecError where
  /-- Hex input of odd length (R131). -/
  | oddLength
  /-- A character outside the active alphabet: its index in the whole input, and itself (R132). -/
  | invalidDigit (pos : Nat) (val : Byte)
  /-- Operands of different lengths, carrying both, first and second (R133; 43_xor.md R123). -/
  | lengthMismatch (nx ny : Nat)
  /-- A reserved command word, or a length operand above `CAP_IN` (R134). -/
  | illegalCmd
  /-- Base64 input whose length is no multiple of 4 (R135). -/
  | badLength
  deriving DecidableEq, Repr

/-- The error's code in `STATUS.ERR` (R130). -/
def errCode : CodecError → BitVec 3
  | .oddLength => 1#3
  | .invalidDigit _ _ => 2#3
  | .lengthMismatch _ _ => 3#3
  | .illegalCmd => 4#3
  | .badLength => 5#3

/-- What the error records in `ERRPOS`: an index for `InvalidDigit`, else 0 (R130; 10_state.md R20). The two lengths of a
`LengthMismatch` are not copied: they stand in `LENA` and `LENB` (R133). -/
def errPos : CodecError → Nat
  | .invalidDigit pos _ => pos
  | _ => 0

/-- What the error records in `ERRVAL`: the character for `InvalidDigit`, else 0 (R130; 10_state.md R21). -/
def errVal : CodecError → Byte
  | .invalidDigit _ val => val
  | _ => 0#8

/-- `STATUS` as a byte: bits 7:4 zero, `ERR` in bits 3:1, `DONE` in bit 0 (10_state.md R14). -/
def statusByte (err : BitVec 3) (done : BitVec 1) : Byte := (0#4) ++ err ++ done

/-- `STATUS.DONE`, bit 0 (R15). -/
def statusDone (status : Byte) : BitVec 1 := status.extractLsb' 0 1

/-- `STATUS.ERR`, bits 3:1 (R16). -/
def statusErr (status : Byte) : BitVec 3 := status.extractLsb' 1 3

end Sys2Proof.Machine
end

