-- ==== Sys2Proof/Machine/Ops.lean ====
section
/-! DEFINITION. The named operations over memory and registers, and the two ways a command ends: `complete` and `raise`. -/

namespace Sys2Proof.Machine

/-! ## Byte memories -/

/-- The canonical form: indices strictly rising. An unlisted index is unspecified, so no listed byte equals what an
unlisted one reads as. -/
def Memory.wf : Memory → Bool
  | [] => true
  | [_] => true
  | (i, _) :: (j, v) :: rest => decide (i < j) && Memory.wf ((j, v) :: rest)

/-- `MemRead` of one byte: its specified value, none where it is unspecified (00_scope.md section 6). -/
def memRead : Memory → Nat → Option Byte
  | [], _ => none
  | (i, v) :: rest, j => if i = j then some v else memRead rest j

/-- `MemWrite` of one byte (00_scope.md section 6). -/
def memWrite : Memory → Nat → Byte → Memory
  | [], j, w => [(j, w)]
  | (i, v) :: rest, j, w =>
    if j < i then (j, w) :: (i, v) :: rest
    else if j = i then (j, w) :: rest
    else (i, v) :: memWrite rest j w

/-- The memory that lists the bytes of a sequence in index order from `start`, and nothing else (20_memory.md R36). -/
def memOf (start : Nat) : List Byte → Memory
  | [] => []
  | v :: rest => (start, v) :: memOf (start + 1) rest

/-! ## State updates -/

/-- `SRCA` or `SRCB`. -/
def State.src (s : State) : Buf → Memory
  | .a => s.srca
  | .b => s.srcb

/-- `LENA` or `LENB`. -/
def State.len (s : State) : Buf → Nat
  | .a => s.lena
  | .b => s.lenb

/-- Replace a source buffer. -/
def State.setSrc (s : State) (m : Memory) : Buf → State
  | .a => { s with srca := m }
  | .b => { s with srcb := m }

/-- Write a length register: nothing else changes (20_memory.md R34). -/
def State.setLen (s : State) (n : Nat) : Buf → State
  | .a => { s with lena := n }
  | .b => { s with lenb := n }

/-- Store a word in `CMD` (10_state.md R13). -/
def State.setCmd (s : State) (w : Byte) : State := { s with cmd := w }

/-- Replace the host's actions not yet taken. -/
def State.setPending (s : State) (as : List HostAction) : State := { s with pending := as }

/-- Return a value to the host (20_memory.md R30). -/
def State.reply (s : State) (r : Reply) : State := { s with replies := s.replies ++ [r] }

/-- Count one drawn free byte (93_implementation_defined.md U1, U2). -/
def State.drawn (s : State) : State := { s with draws := s.draws + 1 }

/-- Write a command's whole outcome: `STATUS`, `LENO`, `ERRPOS`, `ERRVAL` and `DST`, and nothing else (10_state.md R28). -/
def State.setOutcome (s : State) (status : Byte) (leno errpos : Nat) (errval : Byte) (dst : Memory) : State :=
  { s with status := status, leno := leno, errpos := errpos, errval := errval, dst := dst }

/-! ## How a command ends -/

/-- Success outcome (30_encoding.md R58): the output in `DST` from index 0, every other byte of `DST` unspecified. -/
def complete (out : List Byte) (s : State) : State :=
  s.setOutcome (statusByte 0#3 1#1) out.length 0 0#8 (memOf 0 out)

/-- Error outcome (60_exceptions.md R136), the block's whole "exception entry": the kind and detail recorded, no output, every byte
of `DST` unspecified. There is no return from it and nothing to return from (R140). -/
def raise (e : CodecError) (s : State) : State :=
  s.setOutcome (statusByte (errCode e) 1#1) 0 (errPos e) (errVal e) []

/-- End a command with the result of its function. -/
def finish : Except CodecError (List Byte) → State → State
  | .ok out, s => complete out s
  | .error e, s => raise e s

/-! ## Reset -/

/-- `RESET` (70_reset_and_hazards.md R155 to R157): the block's ten items as after reset. `CAP_IN` and the host's side of the port are
not the block's state and stay (log entry 8). -/
def resetBlock (s : State) : State :=
  { State.resetWith s.capIn with pending := s.pending, replies := s.replies, draws := s.draws }

/-! ## Registers -/

/-- `RDREG`: the whole current value of register `r`, none where there is no such register (20_memory.md R35). -/
def readReg (s : State) : Nat → Option Reply
  | 0 => some (.byte s.cmd)
  | 1 => some (.byte s.status)
  | 2 => some (.len s.lena)
  | 3 => some (.len s.lenb)
  | 4 => some (.len s.leno)
  | 5 => some (.len s.errpos)
  | 6 => some (.byte s.errval)
  | _ => none

/-- How many values the write port of register `r` can present: it is exactly as wide as the register
(20_memory.md R34); none where there is no such register. -/
def regPort (s : State) : Nat → Option Nat
  | 0 => some (2 ^ 8)
  | 1 => some (2 ^ 8)
  | 2 => some (2 ^ Config.lenW s.capIn)
  | 3 => some (2 ^ Config.lenW s.capIn)
  | 4 => some (2 ^ Config.lenW s.capIn)
  | 5 => some (2 ^ Config.lenW s.capIn)
  | 6 => some (2 ^ 8)
  | _ => none

/-- `WRREG` to a register other than `CMD`: `LENA` and `LENB` take the value, a write to a read-only register
changes nothing (20_memory.md R34). -/
def writeReg (s : State) (r v : Nat) : State :=
  match r with
  | 2 => s.setLen v .a
  | 3 => s.setLen v .b
  | _ => s

end Sys2Proof.Machine
end

