-- ==== Sys2Proof/Machine/Operands.lean ====
section
/-! DEFINITION. How a command reads its operands: one byte at a time from a source buffer (20_memory.md R47), and the length admission
every command makes first (30_encoding.md R57). -/

namespace Sys2Proof.Machine

/-- A byte that may be unspecified: its value where it has one, else the next free byte (93_implementation_defined.md U1, U2: any
value, drawn afresh at every read). -/
def valueOrFree (v : Option Byte) (s : State) : Byte × State :=
  match v with
  | some w => (w, s)
  | none => (Config.freeByte s.draws, s.drawn)

/-- `MemRead` of byte `i` of a source buffer. -/
def readSrc (buf : Buf) (i : Nat) (s : State) : Byte × State := valueOrFree (memRead (s.src buf) i) s

/-- The bytes `start`, ..., `start + count - 1` of a source buffer, read in index order. -/
def readRange (buf : Buf) (start : Nat) : Nat → State → List Byte × State
  | 0, s => ([], s)
  | count + 1, s =>
    let (v, s1) := readSrc buf start s
    let (vs, s2) := readRange buf (start + 1) count s1
    (v :: vs, s2)

/-- The operand in a source buffer: the bytes below its length (10_state.md R17, R18). -/
def readOperand (buf : Buf) (s : State) : List Byte × State := readRange buf 0 (s.len buf) s

/-- Length admission (30_encoding.md R57): `LENA <= CAP_IN`, and for a command that reads `SRCB` also `LENB <= CAP_IN`. -/
def admitted (usesB : Bool) (s : State) : Bool :=
  decide (s.lena ≤ s.capIn) && (!usesB || decide (s.lenb ≤ s.capIn))

/-- Run a command body after the length admission (30_encoding.md R56): a length operand that does not fit its buffer ends the
command with `IllegalCmd`, and no buffer is read. -/
def runCommand (usesB : Bool) (body : State → State) (s : State) : Host.Outcome State Fault Refusal :=
  .next (if admitted usesB s then body s else raise .illegalCmd s)

end Sys2Proof.Machine
end

