-- ==== Sys2Proof/Machine/Base64Encode.lean ====
section
/-! DEFINITION. The base64 encode family: `base64_bit_regroup_stage`, `base64_symbol_lut`, `padding_control`, `B64ENC` (41_base64_encode.md). -/

namespace Sys2Proof.Machine

/-- `Regroup(x, y, z)`: three bytes to four sextets (R85). -/
def regroup (x y z : Byte) : Sextet × Sextet × Sextet × Sextet :=
  ((x >>> 2).setWidth 6,
   (((x &&& 0x03#8) <<< 4) ||| (y >>> 4)).setWidth 6,
   (((y &&& 0x0F#8) <<< 2) ||| (z >>> 6)).setWidth 6,
   (z &&& 0x3F#8).setWidth 6)

/-- `B64Char(s)`: the character of a sextet (R87); total on 6-bit values, so there is no out-of-range case (R88). -/
def b64Char (s : Sextet) : Byte :=
  if s ≤ 25#6 then 0x41#8 + s.setWidth 8
  else if s ≤ 51#6 then 0x61#8 + (s.setWidth 8 - 26#8)
  else if s ≤ 61#6 then 0x30#8 + (s.setWidth 8 - 52#8)
  else if s = 62#6 then 0x2B#8
  else 0x2F#8

/-- The padding character `'='` (R90). -/
def padChar : Byte := 0x3D#8

/-- The number of real bytes in a group: 1, 2 or 3 (R91). -/
inductive GroupSize where
  | one
  | two
  | three
  deriving DecidableEq, Repr

/-- `PadGate(m, y, z)`: a position that holds no input byte counts as zero, whatever is presented on it (R89). -/
def padGate (m : GroupSize) (y z : Byte) : Byte × Byte :=
  match m with
  | .one => (0#8, 0#8)
  | .two => (y, 0#8)
  | .three => (y, z)

/-- `PadEmit(m, a, b, c, d)`: the four characters a group emits (R90). -/
def padEmit (m : GroupSize) (a b c d : Sextet) : List Byte :=
  match m with
  | .three => [b64Char a, b64Char b, b64Char c, b64Char d]
  | .two => [b64Char a, b64Char b, b64Char c, padChar]
  | .one => [b64Char a, b64Char b, padChar, padChar]

/-- `EncGroup(m, x, y, z)`: the four characters of one group (R92). -/
def encGroup (m : GroupSize) (x y z : Byte) : List Byte :=
  let (y', z') := padGate m y z
  let (a, b, c, d) := regroup x y' z'
  padEmit m a b c d

/-- `base64_encode(b)` (R94): groups of up to three bytes in input order (R91). -/
def b64Encode : List Byte → List Byte
  | [] => []
  | [x] => encGroup .one x 0#8 0#8
  | [x, y] => encGroup .two x y 0#8
  | x :: y :: z :: rest => encGroup .three x y z ++ b64Encode rest

/-- The body of `B64ENC` (R93). -/
def bodyB64enc (s : State) : State :=
  let (bytes, s1) := readOperand .a s
  complete (b64Encode bytes) s1

/-- `B64ENC` (R93). -/
def execB64enc (s : State) : Host.Outcome State Fault Refusal := runCommand false bodyB64enc s

end Sys2Proof.Machine
end

