-- ==== Sys2Proof/Machine/Base64Decode.lean ====
section
/-! DEFINITION. The base64 decode family: the inverse lookup and regroup, `PadCount`, `B64DEC` (42_base64_decode.md). -/

namespace Sys2Proof.Machine

/-- `B64Val(c)`: the sextet whose character it is, none where it is invalid (R105); `'='` is invalid (R106). -/
def b64Val (c : Byte) : Option Sextet :=
  if 0x41#8 ≤ c ∧ c ≤ 0x5A#8 then some ((c - 0x41#8).setWidth 6)
  else if 0x61#8 ≤ c ∧ c ≤ 0x7A#8 then some ((c - 0x61#8 + 26#8).setWidth 6)
  else if 0x30#8 ≤ c ∧ c ≤ 0x39#8 then some ((c - 0x30#8 + 52#8).setWidth 6)
  else if c = 0x2B#8 then some 62#6
  else if c = 0x2F#8 then some 63#6
  else none

/-- `Ungroup(a, b, c, d)`: four sextets to three bytes (R107). -/
def ungroup (a b c d : Sextet) : Byte × Byte × Byte :=
  ((a.setWidth 8 <<< 2) ||| (b.setWidth 8 >>> 4),
   ((b.setWidth 8 &&& 0x0F#8) <<< 4) ||| (c.setWidth 8 >>> 2),
   ((c.setWidth 8 &&& 0x03#8) <<< 6) ||| d.setWidth 8)

/-- `PadCount(s)`: how many trailing `'='` to strip, at most two (R109). -/
def padCount (cs : List Byte) : Nat :=
  match cs.reverse with
  | c :: c' :: _ => if c = padChar then (if c' = padChar then 2 else 1) else 0
  | [c] => if c = padChar then 1 else 0
  | [] => 0

/-- The sextets of a stripped input whose first character stands at index `pos` of the whole input; the lowest invalid index
is reported (R111 step 2). -/
def b64Sextets (pos : Nat) : List Byte → Except CodecError (List Sextet)
  | [] => .ok []
  | c :: rest =>
    match b64Val c with
    | none => .error (.invalidDigit pos c)
    | some v =>
      match b64Sextets (pos + 1) rest with
      | .error e => .error e
      | .ok vs => .ok (v :: vs)

/-- Every four consecutive sextets to three bytes, in group order (R111 step 3). -/
def ungroupAll : List Sextet → List Byte
  | a :: b :: c :: d :: rest =>
    let (x, y, z) := ungroup a b c d
    x :: y :: z :: ungroupAll rest
  | _ => []

/-- Steps 2 to 4 of R111 on the stripped input, with `p` the padding count: fill up with `p` zero sextets, regroup, drop the
last `p` bytes. -/
def b64DecodeStripped (p : Nat) (stripped : List Byte) : Except CodecError (List Byte) :=
  match b64Sextets 0 stripped with
  | .error e => .error e
  | .ok vs =>
    let out := ungroupAll (vs ++ List.replicate p 0#6)
    .ok (out.take (out.length - p))

/-- `base64_decode(s)` (R110, R111). -/
def b64Decode (cs : List Byte) : Except CodecError (List Byte) :=
  if cs.length % 4 = 0 then
    let p := padCount cs
    b64DecodeStripped p (cs.take (cs.length - p))
  else .error .badLength

/-- The second test of `PadCount` on `SRCA`, for `n >= 1`: whether the last character is `'='` (R109, R112). -/
def readPadOne (n : Nat) (s : State) : Nat × State :=
  let (c, s1) := readSrc .a (n - 1) s
  (if c = padChar then 1 else 0, s1)

/-- `PadCount` of `SRCA[0 .. n-1]`, read as the pseudocode of R112 reads it: the last character, then the one before it,
then for the second test the last again. On specified bytes it is `padCount` of the operand. -/
def readPadCount (n : Nat) (s : State) : Nat × State :=
  if n = 0 then (0, s)
  else if n = 1 then readPadOne n s
  else
    let (c, s1) := readSrc .a (n - 1) s
    if c = padChar then
      let (c', s2) := readSrc .a (n - 2) s1
      if c' = padChar then (2, s2) else readPadOne n s2
    else readPadOne n s1

/-- The body of `B64DEC` (R112): `BadLength` is raised before any byte is read. -/
def bodyB64dec (s : State) : State :=
  if s.lena % 4 = 0 then
    let (p, s1) := readPadCount s.lena s
    let (stripped, s2) := readRange .a 0 (s.lena - p) s1
    finish (b64DecodeStripped p stripped) s2
  else raise .badLength s

/-- `B64DEC` (R112). -/
def execB64dec (s : State) : Host.Outcome State Fault Refusal := runCommand false bodyB64dec s

end Sys2Proof.Machine
end

