-- ==== Sys2Proof/Machine/Hex.lean ====
section
/-! DEFINITION. The hex family: `hex_nibble_lut`, `hex_encoder_shift`, `HEXENC`, `HEXDEC` (40_hex.md). -/

namespace Sys2Proof.Machine

/-- `HexChar(n)`: the lowercase hex character of a nibble (R65). -/
def hexChar (n : Nibble) : Byte :=
  if n ≤ 9#4 then 0x30#8 + n.setWidth 8 else 0x57#8 + n.setWidth 8

/-- `HexVal(c)`: the nibble a character stands for, none where it is invalid (R66). -/
def hexVal (c : Byte) : Option Nibble :=
  if 0x30#8 ≤ c ∧ c ≤ 0x39#8 then some ((c - 0x30#8).setWidth 4)
  else if 0x41#8 ≤ c ∧ c ≤ 0x46#8 then some ((c - 0x41#8 + 10#8).setWidth 4)
  else if 0x61#8 ≤ c ∧ c ≤ 0x66#8 then some ((c - 0x61#8 + 10#8).setWidth 4)
  else none

/-- `HexSplit(v)`: the high and the low nibble (R67). -/
def hexSplit (v : Byte) : Nibble × Nibble := (v.extractLsb' 4 4, v.extractLsb' 0 4)

/-- `HexMerge(h, l)`: the byte with these halves (R68). -/
def hexMerge (h l : Nibble) : Byte := h ++ l

/-- `HexPair(v)`: the two characters of a byte, the high nibble's first (R69). -/
def hexPair (v : Byte) : List Byte := [hexChar (hexSplit v).1, hexChar (hexSplit v).2]

/-- `hex_encode(b)` (R71). -/
def hexEncode : List Byte → List Byte
  | [] => []
  | v :: rest => hexPair v ++ hexEncode rest

/-- The windows of an input of even length, the first of them at index `pos` of the whole input (R73 steps 2 to 4):
the first character of a window is tested before the second (R72), so the lowest invalid index is reported. -/
def hexWindows (pos : Nat) : List Byte → Except CodecError (List Byte)
  | [] => .ok []
  | [_] => .error .oddLength
  | c0 :: c1 :: rest =>
    match hexVal c0 with
    | none => .error (.invalidDigit pos c0)
    | some h =>
      match hexVal c1 with
      | none => .error (.invalidDigit (pos + 1) c1)
      | some l =>
        match hexWindows (pos + 2) rest with
        | .error e => .error e
        | .ok out => .ok (hexMerge h l :: out)

/-- `hex_decode(s)` (R73): an odd length is `OddLength` whatever the characters are. -/
def hexDecode (cs : List Byte) : Except CodecError (List Byte) :=
  if cs.length % 2 = 1 then .error .oddLength else hexWindows 0 cs

/-- The body of `HEXENC` (R70). -/
def bodyHexenc (s : State) : State :=
  let (bytes, s1) := readOperand .a s
  complete (hexEncode bytes) s1

/-- `HEXENC` (R70). -/
def execHexenc (s : State) : Host.Outcome State Fault Refusal := runCommand false bodyHexenc s

/-- The body of `HEXDEC` (R72): `OddLength` is raised before any byte is read. -/
def bodyHexdec (s : State) : State :=
  if s.lena % 2 = 1 then raise .oddLength s
  else
    let (cs, s1) := readOperand .a s
    finish (hexDecode cs) s1

/-- `HEXDEC` (R72). -/
def execHexdec (s : State) : Host.Outcome State Fault Refusal := runCommand false bodyHexdec s

end Sys2Proof.Machine
end

