-- ==== Sys2Proof/Machine/Xor.lean ====
section
/-! DEFINITION. The XOR family: `xor_combiner`, `XOR` (43_xor.md). -/

namespace Sys2Proof.Machine

/-- `XorByte(x, y)`: bitwise exclusive-or (R120). -/
def xorByte (x y : Byte) : Byte := x ^^^ y

/-- `xor_combine(x, y)` (R123): operands of different lengths are a `LengthMismatch` carrying both lengths. -/
def xorCombine (xs ys : List Byte) : Except CodecError (List Byte) :=
  if xs.length = ys.length then .ok (List.zipWith xorByte xs ys)
  else .error (.lengthMismatch xs.length ys.length)

/-- The body of `XOR` (R122): `LengthMismatch` is raised before any byte is read. -/
def bodyXor (s : State) : State :=
  if s.lena = s.lenb then
    let (xs, s1) := readOperand .a s
    let (ys, s2) := readOperand .b s1
    finish (xorCombine xs ys) s2
  else raise (.lengthMismatch s.lena s.lenb) s

/-- `XOR` (R122), the only command that reads `SRCB` and `LENB`. -/
def execXor (s : State) : Host.Outcome State Fault Refusal := runCommand true bodyXor s

end Sys2Proof.Machine
end

