-- ==== Sys2Proof/Machine/Dispatch.lean ====
section
/-! DEFINITION. The dispatch: one arm per command (30_encoding.md R56). -/

namespace Sys2Proof.Machine

def exec (i : Instr) (s : State) : Host.Outcome State Fault Refusal :=
  match i with
  | .hexdec => Sys2Proof.Machine.execHexdec s
  | .hexenc => Sys2Proof.Machine.execHexenc s
  | .b64enc => Sys2Proof.Machine.execB64enc s
  | .b64dec => Sys2Proof.Machine.execB64dec s
  | .xor => Sys2Proof.Machine.execXor s

end Sys2Proof.Machine
end

