-- ==== Sys2Proof/Machine/HostPort.lean ====
section
/-! DEFINITION. What each host action does (20_memory.md R30 to R35), and the host script's pseudo-instructions (30_encoding.md R59 to R63). -/

namespace Sys2Proof.Machine

/-- `WRA i, v` and `WRB i, v` (R31): that one byte changes and nothing else. -/
def writeBuf (buf : Buf) (i : Nat) (v : Byte) (s : State) : Host.Outcome State Fault Refusal :=
  if i < s.capIn then .next (s.setSrc (memWrite (s.src buf) i v) buf) else .refused .indexOutOfRange

/-- Return a byte that may be unspecified to the host. -/
def replyByte (v : Option Byte) (s : State) : State :=
  let (w, s1) := valueOrFree v s
  s1.reply (.byte w)

/-- `RDA i` and `RDB i` (R32): the byte last written, a free value where none was since reset. -/
def readBuf (buf : Buf) (i : Nat) (s : State) : Host.Outcome State Fault Refusal :=
  if i < s.capIn then .next (replyByte (memRead (s.src buf) i) s) else .refused .indexOutOfRange

/-- Byte `i` of `DST` as the host sees it (R33): a byte of the output if the last command ended `OK` (`STATUS = 0x01`)
and `i < LENO`, else unspecified. -/
def outputByte (i : Nat) (s : State) : Option Byte :=
  if s.status = statusByte 0#3 1#1 ∧ i < s.leno then memRead s.dst i else none

/-- `RDO i` (R33). -/
def readOut (i : Nat) (s : State) : Host.Outcome State Fault Refusal :=
  if i < Config.capOut s.capIn then .next (replyByte (outputByte i s) s) else .refused .indexOutOfRange

/-- A write to `CMD` (30_encoding.md R56): the word is stored, then the command it encodes is executed to completion; a
reserved word completes at once with `IllegalCmd` (R53). -/
def writeCmd (w : Byte) (s : State) : Host.Outcome State Fault Refusal :=
  match decode w with
  | .ok i => exec i (s.setCmd w)
  | .error _ => .next (raise .illegalCmd (s.setCmd w))

/-- `WRREG r, v` (R34). -/
def actWrreg (r v : Nat) (s : State) : Host.Outcome State Fault Refusal :=
  match regPort s r with
  | none => .refused .noSuchRegister
  | some n =>
    if v < n then
      if r = 0 then writeCmd (BitVec.ofNat 8 v) s else .next (writeReg s r v)
    else .refused .valueTooWide

/-- `RDREG r` (R35): a register read has no side effect. -/
def actRdreg (r : Nat) (s : State) : Host.Outcome State Fault Refusal :=
  match readReg s r with
  | none => .refused .noSuchRegister
  | some v => .next (s.reply v)

/-- One host action, complete before the next begins (R30, R43). -/
def act (a : HostAction) (s : State) : Host.Outcome State Fault Refusal :=
  match a with
  | .reset => .next (resetBlock s)
  | .wra i v => writeBuf .a i v s
  | .wrb i v => writeBuf .b i v s
  | .rda i => readBuf .a i s
  | .rdb i => readBuf .b i s
  | .rdo i => readOut i s
  | .wrreg r v => actWrreg r v s
  | .rdreg r => actRdreg r s

/-- Take the host's next action: with none pending the block does nothing and its state does not change (60_exceptions.md R148). -/
def takeAction (s : State) : Host.Outcome State Fault Refusal :=
  match s.pending with
  | [] => .next s
  | a :: rest => act a (s.setPending rest)

/-- Present a command word at the port, so that the next step takes it: the hardware's "fetch" is the host's write to `CMD`
(20_memory.md R46; log entry 3). -/
def presentWord (w : Byte) (s : State) : State := s.setPending (.wrreg 0 w.toNat :: s.pending)

/-- The host issues one more action, after those it issued before (R43). -/
def issue (a : HostAction) (s : State) : State := s.setPending (s.pending ++ [a])

/-! ## Host scripts -/

/-- A script of primitive actions, executed top to bottom (30_encoding.md R59). -/
def runScript : List HostAction → State → Host.Outcome State Fault Refusal
  | [], s => .next s
  | a :: rest, s =>
    match act a s with
    | .next s1 => runScript rest s1
    | .fault f => .fault f
    | .refused r => .refused r

/-- A command mnemonic is one write to `CMD` (R60). -/
def mnemonicAction (i : Instr) : HostAction := .wrreg 0 (encode i).toNat

/-- `WRA` or `WRB`. -/
def bufWrite : Buf → Nat → Byte → HostAction
  | .a, i, v => .wra i v
  | .b, i, v => .wrb i v

/-- The number of the buffer's length register (10_state.md R12). -/
def lenReg : Buf → Nat
  | .a => 2
  | .b => 3

/-- The writes of a sequence to a buffer from an index on. -/
def bufWrites (buf : Buf) (i : Nat) : List Byte → List HostAction
  | [] => []
  | v :: rest => bufWrite buf i v :: bufWrites buf (i + 1) rest

/-- `LOADA s`, `LOADB s` (R61): the byte writes, then the length; no expansion where the sequence does not fit. -/
def loadScript (capIn : Nat) (buf : Buf) (xs : List Byte) : Option (List HostAction) :=
  if xs.length ≤ capIn then some (bufWrites buf 0 xs ++ [.wrreg (lenReg buf) xs.length]) else none

/-- The copying part of `MOVOA`, `MOVOB`: for each index the read of the output byte and the write of its value. -/
def moveWrites (buf : Buf) (i : Nat) : List Byte → List HostAction
  | [] => []
  | v :: rest => .rdo i :: bufWrite buf i v :: moveWrites buf (i + 1) rest

/-- The bytes `start`, ..., `start + count - 1` of `DST` as the host sees them: none where one of them is unspecified. -/
def outputRange (start : Nat) : Nat → State → Option (List Byte)
  | 0, _ => some []
  | count + 1, s =>
    match outputByte start s, outputRange (start + 1) count s with
    | some v, some vs => some (v :: vs)
    | _, _ => none

/-- `MOVOA`, `MOVOB` in a state (R62): `RDREG LENO`, the copies, then the length. The host computes the copies with the values its
reads return; no expansion where `LENO > CAP_IN`. -/
def moveScript (buf : Buf) (s : State) : Option (List HostAction) :=
  if s.leno ≤ s.capIn then
    match outputRange 0 s.leno s with
    | some xs => some (.rdreg 4 :: (moveWrites buf 0 xs ++ [.wrreg (lenReg buf) s.leno]))
    | none => none
  else none

end Sys2Proof.Machine
end

