-- ==== Sys2Proof/Machine/Step.lean ====
section
/-! DEFINITION. One step: the block takes the host's next action (20_memory.md R30, R43). -/

namespace Sys2Proof.Machine

/-- One step of the machine is one host action, taken in issue order. -/
def step (s : State) : Host.Outcome State Fault Refusal := takeAction s

/-- `s` with a write of the command word `w` to `CMD` as the host's next action (log entry 3). The word is laid out as the
opcode table numbers it. -/
def State.withFetchWord (s : State) (nbits w : Nat) : State := presentWord (tableWord nbits w) s

end Sys2Proof.Machine
end

