-- ==== Sys2Proof/WellFormed.lean ====
section
/-! DEFINITION. Which commands are well formed, and which host actions the block admits. -/

namespace Sys2Proof

/-- Every command is well formed: it has no operand field that could be out of range (30_encoding.md R52). -/
def Instr.wf : Instr → Bool
  | .hexdec => true
  | .hexenc => true
  | .b64enc => true
  | .b64dec => true
  | .xor => true

/-- How many values register `r` can hold: 8 bits for `CMD`, `STATUS`, `ERRVAL`, `LEN_W` bits for the four length
registers, none where there is no such register (10_state.md R12, 20_memory.md R35). -/
def regValues (capIn : Nat) : Nat → Nat
  | 0 => 256
  | 1 => 256
  | 2 => 2 ^ Config.lenW capIn
  | 3 => 2 ^ Config.lenW capIn
  | 4 => 2 ^ Config.lenW capIn
  | 5 => 2 ^ Config.lenW capIn
  | 6 => 256
  | _ => 0

/-- Whether a block of capacity `capIn` admits a host action: the index inside the buffer, the register existing, the
value no wider than the register (20_memory.md R31 to R35; 93_implementation_defined.md U5). -/
def Machine.HostAction.wf (capIn : Nat) : Machine.HostAction → Bool
  | .reset => true
  | .wra i _ => decide (i < capIn)
  | .wrb i _ => decide (i < capIn)
  | .rda i => decide (i < capIn)
  | .rdb i => decide (i < capIn)
  | .rdo i => decide (i < Config.capOut capIn)
  | .wrreg r v => decide (v < regValues capIn r)
  | .rdreg r => decide (r < 7)

end Sys2Proof
end

