-- ==== Sys2Proof/Safety.lean ====
section
/-! DEFINITION. What counts as a sound state and as a careful host, in the terms the statements use. -/

namespace Sys2Proof.Machine

/-- The specified bytes of `m` from index 0 are exactly the sequence `xs`, as far as `xs` goes: every one of them has been written. -/
def Holds (m : Memory) (xs : List Byte) : Prop := ∀ i, i < xs.length → memRead m i = xs[i]?

/-- The sequence `xs` has the specified bytes of `m` where `m` has them, and any byte where `m` is unspecified. -/
def Agrees (m : Memory) (xs : List Byte) : Prop :=
  ∀ i v, i < xs.length → memRead m i = some v → xs[i]? = some v

/-- Every byte of the operand in a source buffer has been written since reset (70_reset_and_hazards.md R160). -/
def OperandWritten (buf : Buf) (s : State) : Prop := ∀ i, i < s.len buf → memRead (s.src buf) i ≠ none

/-- The operands a command reads are written: only `XOR` reads `SRCB` (10_state.md R18; 70_reset_and_hazards.md R160). -/
def OperandsWritten (i : Instr) (s : State) : Prop :=
  OperandWritten .a s ∧ (i = .xor → OperandWritten .b s)

/-- What every state of a block satisfies from reset on. -/
structure Inv (s : State) : Prop where
  /-- `CAP_IN >= 2` (00_scope.md R9). -/
  cap : 2 ≤ s.capIn
  /-- `LENA` is a `LEN_W`-bit value (10_state.md R17). -/
  lena : s.lena < 2 ^ Config.lenW s.capIn
  /-- `LENB` is a `LEN_W`-bit value (10_state.md R18). -/
  lenb : s.lenb < 2 ^ Config.lenW s.capIn
  /-- `LENO` is at most `2 * CAP_IN` (10_state.md R19). -/
  leno : s.leno ≤ Config.capOut s.capIn
  /-- `ERRPOS` is an index of `SRCA` (60_exceptions.md R132). -/
  errpos : s.errpos < s.capIn
  /-- The values `STATUS` can ever have (10_state.md R14). -/
  status : s.status ∈ [0x00#8, 0x01#8, 0x03#8, 0x05#8, 0x07#8, 0x09#8, 0x0B#8]
  /-- `SRCA` is in canonical form and has `CAP_IN` bytes (10_state.md R22). -/
  srca : Memory.wf s.srca = true ∧ ∀ i, s.capIn ≤ i → memRead s.srca i = none
  /-- `SRCB` is in canonical form and has `CAP_IN` bytes (10_state.md R23). -/
  srcb : Memory.wf s.srcb = true ∧ ∀ i, s.capIn ≤ i → memRead s.srcb i = none
  /-- The specified bytes of `DST` are those below `LENO` (10_state.md R24), in index order. -/
  dst : s.dst.map Prod.fst = List.range s.leno
  /-- There is output only after an `OK` outcome (10_state.md R19). -/
  noOutput : s.status ≠ 0x01#8 → s.leno = 0
  /-- There is detail only after `InvalidDigit` (10_state.md R20, R21). -/
  noDetail : s.status ≠ 0x05#8 → s.errpos = 0 ∧ s.errval = 0x00#8
  /-- No command completed since reset means no word written to `CMD` since reset (10_state.md R13, R15). -/
  fresh : s.status = 0x00#8 → s.cmd = 0x00#8

/-- What the text commands leave in `DST` (95_test_vectors.md section 6, item 7): after `HEXENC` an even number of hex characters, after
`B64ENC` whole groups of base64 characters with `'='` in the last two positions only. -/
structure OutputText (s : State) : Prop where
  hex : s.status = 0x01#8 → s.cmd = encode .hexenc →
    s.leno % 2 = 0 ∧ ∀ j v, memRead s.dst j = some v → ∃ n, v = hexChar n
  b64 : s.status = 0x01#8 → s.cmd = encode .b64enc →
    s.leno % 4 = 0 ∧ ∀ j v, memRead s.dst j = some v → (∃ x, v = b64Char x) ∨ (v = padChar ∧ s.leno ≤ j + 2)

/-- What a careful host does (70_reset_and_hazards.md R162 items 4, 5 and 9): it reads only bytes that hold a value, starts a command only with
written operands, and issues no action that is not admitted. -/
def Careful (a : HostAction) (s : State) : Prop :=
  a.wf s.capIn = true ∧
  match a with
  | .rda i => memRead s.srca i ≠ none
  | .rdb i => memRead s.srcb i ≠ none
  | .rdo i => s.status = 0x01#8 ∧ i < s.leno
  | .wrreg 0 v => ∀ i, decode (BitVec.ofNat 8 v) = .ok i → OperandsWritten i s
  | _ => True

end Sys2Proof.Machine
end

