-- ==== Sys2Proof/Certificates/Slice0/Obligations.lean ====
section
/-! DEFINITION. The statements for the provers, from the numbered rules of spec/. -/

open Sys2Proof Sys2Proof.Machine

/-! ## The command word -/

/-- 30_encoding.md R51: the five words, and when a word is a command. -/
def Obligations.OpcodeMapDecodesFiveWords : Prop :=
  decode 0x01#8 = .ok .hexdec ∧ decode 0x02#8 = .ok .hexenc ∧ decode 0x03#8 = .ok .b64enc ∧
  decode 0x04#8 = .ok .b64dec ∧ decode 0x05#8 = .ok .xor ∧
  ∀ w : Byte, (∃ i, decode w = .ok i) ↔
    (w &&& 0xF8#8 = 0#8 ∧ 1 ≤ (w &&& 0x07#8).toNat ∧ (w &&& 0x07#8).toNat ≤ 5)

/-- Decoding and encoding agree in both directions (30_encoding.md section 1). -/
def Obligations.DecodeEncodeRoundTrip : Prop :=
  (∀ i : Instr, i.wf = true → decode (encode i) = .ok i) ∧
  ∀ (w : Byte) (i : Instr), decode w = .ok i → encode i = w

/-- A step that takes the write of a command word to `CMD` stores the word and is `exec` of the decoded command
(10_state.md R13, 30_encoding.md R56); around `exec` the step takes the action from the host's list. A word presented to the
block is the next thing it runs. -/
def Obligations.StepRunsDecodedCommand : Prop :=
  (∀ (s : State) (rest : List HostAction) (v : Nat) (i : Instr),
    s.pending = .wrreg 0 v :: rest → v < 256 → decode (BitVec.ofNat 8 v) = .ok i → i.wf = true →
    step s = exec i { s with pending := rest, cmd := BitVec.ofNat 8 v }) ∧
  ∀ (s : State) (i : Instr), step (s.withFetchWord 8 (encode i).toNat) = exec i { s with cmd := encode i }

/-- 30_encoding.md R53: 251 words are reserved; writing one stores it and completes with `IllegalCmd`. -/
def Obligations.ReservedWordEndsIllegalCmd : Prop :=
  ((List.range 256).filter (fun n =>
    match decode (BitVec.ofNat 8 n) with | .ok _ => false | .error _ => true)).length = 251 ∧
  ∀ (s : State) (rest : List HostAction) (w : Byte), s.pending = .wrreg 0 w.toNat :: rest →
    (w &&& 0xF8#8 ≠ 0#8 ∨ w = 0x00#8 ∨ w = 0x06#8 ∨ w = 0x07#8) →
    step s = .next { s with pending := rest, cmd := w, status := 0x09#8, leno := 0, errpos := 0, errval := 0x00#8,
                            dst := [] }

/-- 30_encoding.md R57: a length operand above `CAP_IN` ends the command with `IllegalCmd`, whatever the buffers hold; `LENB` is
looked at by `XOR` alone. -/
def Obligations.OversizeLengthEndsIllegalCmd : Prop :=
  (∀ (s : State) (i : Instr), (s.capIn < s.lena ∨ (i = .xor ∧ s.capIn < s.lenb)) →
    exec i s = .next { s with status := 0x09#8, leno := 0, errpos := 0, errval := 0x00#8, dst := [] }) ∧
  ∀ (s t : State) (i : Instr) (n : Nat) (m : Memory), i ≠ .xor → exec i s = .next t →
    exec i { s with lenb := n, srcb := m } = .next { t with lenb := n, srcb := m }

/-! ## The units -/

/-- 40_hex.md R65, R66: the forward hex table, injective; the inverse hex table with its 22 valid characters; and that the inverse
undoes the forward table. -/
def Obligations.HexAlphabetTables : Prop :=
  (∀ n : Nibble, (n.toNat ≤ 9 → (hexChar n).toNat = 0x30 + n.toNat) ∧
    (10 ≤ n.toNat → (hexChar n).toNat = 0x61 + (n.toNat - 10))) ∧
  (∀ n m : Nibble, hexChar n = hexChar m → n = m) ∧
  (∀ c : Byte, (hexVal c).map BitVec.toNat =
    if 0x30 ≤ c.toNat ∧ c.toNat ≤ 0x39 then some (c.toNat - 0x30)
    else if 0x41 ≤ c.toNat ∧ c.toNat ≤ 0x46 then some (c.toNat - 0x41 + 10)
    else if 0x61 ≤ c.toNat ∧ c.toNat ≤ 0x66 then some (c.toNat - 0x61 + 10)
    else none) ∧
  ((List.range 256).filter (fun n => (hexVal (BitVec.ofNat 8 n)).isSome)).length = 22 ∧
  ∀ n : Nibble, hexVal (hexChar n) = some n

/-- 40_hex.md R67, R68: the halves of a byte, their merge, and that each undoes the other. -/
def Obligations.HexSplitMergeInverse : Prop :=
  (∀ v : Byte, (hexSplit v).1.toNat = v.toNat / 16 ∧ (hexSplit v).2.toNat = v.toNat % 16) ∧
  (∀ h l : Nibble, (hexMerge h l).toNat = 16 * h.toNat + l.toNat) ∧
  (∀ v : Byte, hexMerge (hexSplit v).1 (hexSplit v).2 = v) ∧
  ∀ h l : Nibble, hexSplit (hexMerge h l) = (h, l)

/-- 41_base64_encode.md R86, 42_base64_decode.md R107, R108: both regroupings cut the same 24 bits, most significant first, and undo
each other. -/
def Obligations.RegroupAndUngroupCutTheSameBits : Prop :=
  (∀ x y z : Byte,
    regroup x y z =
      (x.extractLsb' 2 6, x.extractLsb' 0 2 ++ y.extractLsb' 4 4, y.extractLsb' 0 4 ++ z.extractLsb' 6 2,
        z.extractLsb' 0 6) ∧
    regroup x y z =
      ((x ++ y ++ z).extractLsb' 18 6, (x ++ y ++ z).extractLsb' 12 6, (x ++ y ++ z).extractLsb' 6 6,
        (x ++ y ++ z).extractLsb' 0 6)) ∧
  (∀ a b c d : Sextet, ungroup a b c d =
    (a ++ b.extractLsb' 4 2, b.extractLsb' 0 4 ++ c.extractLsb' 2 4, c.extractLsb' 0 2 ++ d)) ∧
  (∀ x y z : Byte,
    ungroup (regroup x y z).1 (regroup x y z).2.1 (regroup x y z).2.2.1 (regroup x y z).2.2.2 = (x, y, z)) ∧
  ∀ a b c d : Sextet,
    regroup (ungroup a b c d).1 (ungroup a b c d).2.1 (ungroup a b c d).2.2 = (a, b, c, d)

/-- 41_base64_encode.md R87, 42_base64_decode.md R105: the base64 alphabet, injective and without `'='`; the inverse table with its 64
valid characters, `'='` not one of them; and that each undoes the other. -/
def Obligations.B64AlphabetTables : Prop :=
  (∀ x : Sextet, (b64Char x).toNat =
    if x.toNat ≤ 25 then 0x41 + x.toNat
    else if x.toNat ≤ 51 then 0x61 + (x.toNat - 26)
    else if x.toNat ≤ 61 then 0x30 + (x.toNat - 52)
    else if x.toNat = 62 then 0x2B else 0x2F) ∧
  (∀ x y : Sextet, b64Char x = b64Char y → x = y) ∧
  (∀ x : Sextet, b64Char x ≠ 0x3D#8) ∧
  (∀ c : Byte, (b64Val c).map BitVec.toNat =
    if 0x41 ≤ c.toNat ∧ c.toNat ≤ 0x5A then some (c.toNat - 0x41)
    else if 0x61 ≤ c.toNat ∧ c.toNat ≤ 0x7A then some (c.toNat - 0x61 + 26)
    else if 0x30 ≤ c.toNat ∧ c.toNat ≤ 0x39 then some (c.toNat - 0x30 + 52)
    else if c.toNat = 0x2B then some 62 else if c.toNat = 0x2F then some 63 else none) ∧
  ((List.range 256).filter (fun n => (b64Val (BitVec.ofNat 8 n)).isSome)).length = 64 ∧
  b64Val 0x3D#8 = none ∧
  (∀ x : Sextet, b64Val (b64Char x) = some x) ∧
  ∀ (c : Byte) (x : Sextet), b64Val c = some x → b64Char x = c

/-- 43_xor.md R120, R121: exclusive-or bit by bit, and its laws. -/
def Obligations.XorByteLaws : Prop :=
  (∀ (x y : Byte) (i : Nat), i < 8 → ((xorByte x y).getLsbD i = true ↔ x.getLsbD i ≠ y.getLsbD i)) ∧
  ∀ x y : Byte, xorByte x y = xorByte y x ∧ xorByte (xorByte x y) y = x ∧ xorByte x 0x00#8 = x ∧
    xorByte x x = 0x00#8 ∧ xorByte x 0xFF#8 = ~~~x

/-! ## The functions -/

/-- 40_hex.md R69, R71: the text of `hex_encode`: two lowercase characters a byte, the high nibble's first. -/
def Obligations.HexEncodeText : Prop :=
  ∀ xs : List Byte, (hexEncode xs).length = 2 * xs.length ∧
    (∀ (k : Nat) (v : Byte), xs[k]? = some v →
      (hexEncode xs)[2 * k]? = some (hexChar (hexSplit v).1) ∧
      (hexEncode xs)[2 * k + 1]? = some (hexChar (hexSplit v).2)) ∧
    ∀ c, c ∈ hexEncode xs → (0x30#8 ≤ c ∧ c ≤ 0x39#8) ∨ (0x61#8 ≤ c ∧ c ≤ 0x66#8)

/-- 40_hex.md R75: the round trip, and the other direction up to case. -/
def Obligations.HexRoundTrip : Prop :=
  (∀ xs : List Byte, hexDecode (hexEncode xs) = .ok xs) ∧
  ∀ cs out : List Byte, hexDecode cs = .ok out →
    hexEncode out = cs.map (fun c => if 0x41#8 ≤ c ∧ c ≤ 0x46#8 then c + 0x20#8 else c)

/-- 40_hex.md R73: odd length first, then the lowest invalid character, else the merged windows in order. -/
def Obligations.HexDecodeFollowsWindows : Prop :=
  ∀ cs : List Byte,
    (cs.length % 2 = 1 → hexDecode cs = .error .oddLength) ∧
    (cs.length % 2 = 0 → ∀ (p : Nat) (c : Byte), cs[p]? = some c → hexVal c = none →
      (∀ (q : Nat) (d : Byte), q < p → cs[q]? = some d → hexVal d ≠ none) →
      hexDecode cs = .error (.invalidDigit p c)) ∧
    (cs.length % 2 = 0 → (∀ c, c ∈ cs → hexVal c ≠ none) →
      ∃ out, hexDecode cs = .ok out ∧ out.length = cs.length / 2 ∧
        ∀ (k : Nat) (c0 c1 : Byte) (h l : Nibble), cs[2 * k]? = some c0 → cs[2 * k + 1]? = some c1 →
          hexVal c0 = some h → hexVal c1 = some l → out[k]? = some (hexMerge h l))

/-- 41_base64_encode.md R91, R92, R94: `base64_encode` group by group, its length and its padding. -/
def Obligations.B64EncodeGroupsAndPadding : Prop :=
  ∀ xs : List Byte,
    (b64Encode xs).length = 4 * ((xs.length + 2) / 3) ∧
    (∀ g, 3 * g < xs.length →
      ((b64Encode xs).drop (4 * g)).take 4 =
        encGroup (if xs.length - 3 * g = 1 then .one else if xs.length - 3 * g = 2 then .two else .three)
          (xs.getD (3 * g) 0#8) (xs.getD (3 * g + 1) 0#8) (xs.getD (3 * g + 2) 0#8)) ∧
    ((b64Encode xs).reverse.takeWhile (fun c => c = 0x3D#8)).length = (3 - xs.length % 3) % 3 ∧
    ∀ (j : Nat) (c : Byte), (b64Encode xs)[j]? = some c →
      (∃ x, c = b64Char x) ∨ (c = 0x3D#8 ∧ (b64Encode xs).length ≤ j + 2)

/-- 42_base64_decode.md R114: the base64 round trip. -/
def Obligations.B64RoundTrip : Prop := ∀ xs : List Byte, b64Decode (b64Encode xs) = .ok xs

/-- 41_base64_encode.md R89, R90, 42_base64_decode.md R109: what `padding_control` passes to the regroup stage, what a group emits and
that the sextets or bits it drops are zero, and how much padding a decode strips. -/
def Obligations.PaddingControlBothWays : Prop :=
  (∀ y z : Byte, padGate .one y z = (0x00#8, 0x00#8) ∧ padGate .two y z = (y, 0x00#8) ∧ padGate .three y z = (y, z)) ∧
  (∀ a b c d : Sextet,
    padEmit .three a b c d = [b64Char a, b64Char b, b64Char c, b64Char d] ∧
    padEmit .two a b c d = [b64Char a, b64Char b, b64Char c, 0x3D#8] ∧
    padEmit .one a b c d = [b64Char a, b64Char b, 0x3D#8, 0x3D#8]) ∧
  (∀ x y : Byte,
    (regroup x 0x00#8 0x00#8).2.2 = (0#6, 0#6) ∧ (regroup x 0x00#8 0x00#8).2.1.extractLsb' 0 4 = 0#4 ∧
    (regroup x y 0x00#8).2.2.2 = 0#6 ∧ (regroup x y 0x00#8).2.2.1.extractLsb' 0 2 = 0#2) ∧
  ∀ cs : List Byte, padCount cs =
    if 2 ≤ cs.length ∧ cs[cs.length - 1]? = some 0x3D#8 ∧ cs[cs.length - 2]? = some 0x3D#8 then 2
    else if 1 ≤ cs.length ∧ cs[cs.length - 1]? = some 0x3D#8 then 1 else 0

/-- 42_base64_decode.md R110, R111: the length rule first, then the lowest invalid character of the stripped input, else the
regrouped bytes less the dropped ones. -/
def Obligations.B64DecodeFollowsGroups : Prop :=
  ∀ cs : List Byte,
    (cs.length % 4 ≠ 0 → b64Decode cs = .error .badLength) ∧
    (cs.length % 4 = 0 → ∀ (p : Nat) (c : Byte), p < cs.length - padCount cs → cs[p]? = some c → b64Val c = none →
      (∀ (q : Nat) (d : Byte), q < p → cs[q]? = some d → b64Val d ≠ none) →
      b64Decode cs = .error (.invalidDigit p c)) ∧
    (cs.length % 4 = 0 →
      (∀ (q : Nat) (d : Byte), q < cs.length - padCount cs → cs[q]? = some d → b64Val d ≠ none) →
      ∃ out, b64Decode cs = .ok out ∧ out.length = 3 * (cs.length / 4) - padCount cs ∧
        ∀ v : Nat → Sextet,
          (∀ (q : Nat) (d : Byte), q < cs.length - padCount cs → cs[q]? = some d → b64Val d = some (v q)) →
          (∀ q, cs.length - padCount cs ≤ q → v q = 0#6) →
          ∀ g, g < cs.length / 4 →
            (3 * g < out.length →
              out[3 * g]? = some (ungroup (v (4 * g)) (v (4 * g + 1)) (v (4 * g + 2)) (v (4 * g + 3))).1) ∧
            (3 * g + 1 < out.length →
              out[3 * g + 1]? = some (ungroup (v (4 * g)) (v (4 * g + 1)) (v (4 * g + 2)) (v (4 * g + 3))).2.1) ∧
            (3 * g + 2 < out.length →
              out[3 * g + 2]? = some (ungroup (v (4 * g)) (v (4 * g + 1)) (v (4 * g + 2)) (v (4 * g + 3))).2.2))

/-- 42_base64_decode.md R113: the bits that belong to no output byte are ignored, so decoding is not injective and encoding does not
undo it; the encoder makes those bits zero. -/
def Obligations.FillerBitsIgnored : Prop :=
  (∀ (pre : List Byte) (a b c c' : Byte) (v v' : Sextet), b64Val c = some v → b64Val c' = some v' →
    v.extractLsb' 2 4 = v'.extractLsb' 2 4 →
    b64Decode (pre ++ [a, b, c, 0x3D#8]) = b64Decode (pre ++ [a, b, c', 0x3D#8])) ∧
  (∀ (pre : List Byte) (a b b' : Byte) (v v' : Sextet), b64Val b = some v → b64Val b' = some v' →
    v.extractLsb' 4 2 = v'.extractLsb' 4 2 →
    b64Decode (pre ++ [a, b, 0x3D#8, 0x3D#8]) = b64Decode (pre ++ [a, b', 0x3D#8, 0x3D#8])) ∧
  b64Decode [0x54#8, 0x52#8, 0x3D#8, 0x3D#8] = .ok [0x4D#8] ∧ b64Decode [0x54#8, 0x51#8, 0x3D#8, 0x3D#8] = .ok [0x4D#8] ∧
  b64Encode [0x4D#8] = [0x54#8, 0x51#8, 0x3D#8, 0x3D#8] ∧
  ∀ x y : Byte, (regroup x 0x00#8 0x00#8).2.1.extractLsb' 0 4 = 0#4 ∧ (regroup x y 0x00#8).2.2.1.extractLsb' 0 2 = 0#2

/-- 43_xor.md R123: unequal lengths are `LengthMismatch` with both lengths; else byte by byte, commutative and self-inverse. -/
def Obligations.XorCombineBytesAndLaws : Prop :=
  ∀ xs ys : List Byte,
    (xs.length ≠ ys.length → xorCombine xs ys = .error (.lengthMismatch xs.length ys.length)) ∧
    (xs.length = ys.length → ∃ zs, xorCombine xs ys = .ok zs ∧ zs.length = xs.length ∧
      (∀ (i : Nat) (x y : Byte), xs[i]? = some x → ys[i]? = some y → zs[i]? = some (xorByte x y)) ∧
      xorCombine ys xs = .ok zs ∧ xorCombine zs ys = .ok xs)

/-! ## The commands: where each completes, and with what -/

/-- 40_hex.md R70: `HEXENC` on a written operand. -/
def Obligations.HexencCompletes : Prop :=
  ∀ (s : State) (xs : List Byte), s.lena ≤ s.capIn → xs.length = s.lena → Holds s.srca xs →
    exec .hexenc s = .next { s with status := 0x01#8, leno := 2 * s.lena, errpos := 0, errval := 0x00#8,
                                    dst := memOf 0 (hexEncode xs) }

/-- 40_hex.md R72: `HEXDEC` on a written operand of even length with hex digits only. -/
def Obligations.HexdecCompletes : Prop :=
  ∀ (s : State) (cs : List Byte), s.lena ≤ s.capIn → cs.length = s.lena → Holds s.srca cs →
    s.lena % 2 = 0 → (∀ c, c ∈ cs → hexVal c ≠ none) →
    ∃ out, hexDecode cs = .ok out ∧
      exec .hexdec s = .next { s with status := 0x01#8, leno := s.lena / 2, errpos := 0, errval := 0x00#8,
                                      dst := memOf 0 out }

/-- 60_exceptions.md R131: `HEXDEC` with `LENA` odd, whatever the buffers hold; no other command ends so. -/
def Obligations.HexdecOddLengthEnds : Prop :=
  (∀ s : State, s.lena ≤ s.capIn → s.lena % 2 = 1 →
    exec .hexdec s = .next { s with status := 0x03#8, leno := 0, errpos := 0, errval := 0x00#8, dst := [] }) ∧
  ∀ (i : Instr) (s t : State), exec i s = .next t → t.status = 0x03#8 → i = .hexdec ∧ s.lena % 2 = 1

/-- 60_exceptions.md R132, R138: `HEXDEC` reports the invalid character of lowest index. -/
def Obligations.HexdecInvalidDigitEnds : Prop :=
  ∀ (s : State) (cs : List Byte) (p : Nat) (c : Byte), s.lena ≤ s.capIn → cs.length = s.lena → Holds s.srca cs →
    s.lena % 2 = 0 → cs[p]? = some c → hexVal c = none →
    (∀ (q : Nat) (d : Byte), q < p → cs[q]? = some d → hexVal d ≠ none) →
    exec .hexdec s = .next { s with status := 0x05#8, leno := 0, errpos := p, errval := c, dst := [] }

/-- 40_hex.md R74: the document's three boundary results of hex decoding. -/
def Obligations.HexdecBoundaryResults : Prop :=
  ∀ s : State,
    (s.lena = 0 →
      exec .hexdec s = .next { s with status := 0x01#8, leno := 0, errpos := 0, errval := 0x00#8, dst := [] }) ∧
    (s.lena = 1 → 1 ≤ s.capIn → memRead s.srca 0 = some 0x61#8 →
      exec .hexdec s = .next { s with status := 0x03#8, leno := 0, errpos := 0, errval := 0x00#8, dst := [] }) ∧
    (s.lena = 2 → 2 ≤ s.capIn → memRead s.srca 0 = some 0x7A#8 → memRead s.srca 1 = some 0x7A#8 →
      exec .hexdec s = .next { s with status := 0x05#8, leno := 0, errpos := 0, errval := 0x7A#8, dst := [] })

/-- 41_base64_encode.md R93: `B64ENC` on a written operand. -/
def Obligations.B64encCompletes : Prop :=
  ∀ (s : State) (xs : List Byte), s.lena ≤ s.capIn → xs.length = s.lena → Holds s.srca xs →
    exec .b64enc s = .next { s with status := 0x01#8, leno := 4 * ((s.lena + 2) / 3), errpos := 0, errval := 0x00#8,
                                    dst := memOf 0 (b64Encode xs) }

/-- 42_base64_decode.md R112: `B64DEC` on a written operand whose stripped characters are all in the alphabet. -/
def Obligations.B64decCompletes : Prop :=
  ∀ (s : State) (cs : List Byte), s.lena ≤ s.capIn → cs.length = s.lena → Holds s.srca cs →
    s.lena % 4 = 0 →
    (∀ (q : Nat) (d : Byte), q < cs.length - padCount cs → cs[q]? = some d → b64Val d ≠ none) →
    ∃ out, b64Decode cs = .ok out ∧
      exec .b64dec s = .next { s with status := 0x01#8, leno := 3 * (s.lena / 4) - padCount cs, errpos := 0,
                                      errval := 0x00#8, dst := memOf 0 out }

/-- 60_exceptions.md R135: `B64DEC` with a length that is no multiple of 4, whatever the buffers hold; nothing else ends so. -/
def Obligations.B64decBadLengthEnds : Prop :=
  (∀ s : State, s.lena ≤ s.capIn → s.lena % 4 ≠ 0 →
    exec .b64dec s = .next { s with status := 0x0B#8, leno := 0, errpos := 0, errval := 0x00#8, dst := [] }) ∧
  ∀ (i : Instr) (s t : State), exec i s = .next t → t.status = 0x0B#8 → i = .b64dec ∧ s.lena % 4 ≠ 0

/-- 60_exceptions.md R132, R138: `B64DEC` reports the invalid character of lowest index below `LENA - p`. -/
def Obligations.B64decInvalidDigitEnds : Prop :=
  ∀ (s : State) (cs : List Byte) (p : Nat) (c : Byte), s.lena ≤ s.capIn → cs.length = s.lena → Holds s.srca cs →
    s.lena % 4 = 0 → p < cs.length - padCount cs → cs[p]? = some c → b64Val c = none →
    (∀ (q : Nat) (d : Byte), q < p → cs[q]? = some d → b64Val d ≠ none) →
    exec .b64dec s = .next { s with status := 0x05#8, leno := 0, errpos := p, errval := c, dst := [] }

/-- 43_xor.md R122: `XOR` on written operands of equal length. -/
def Obligations.XorCompletes : Prop :=
  ∀ (s : State) (xs ys : List Byte), s.lena ≤ s.capIn → s.lenb = s.lena → xs.length = s.lena → ys.length = s.lenb →
    Holds s.srca xs → Holds s.srcb ys →
    exec .xor s = .next { s with status := 0x01#8, leno := s.lena, errpos := 0, errval := 0x00#8,
                                 dst := memOf 0 (List.zipWith xorByte xs ys) }

/-- 60_exceptions.md R133: `XOR` with unequal lengths, whatever the buffers hold; the two lengths stay in `LENA` and `LENB`. -/
def Obligations.XorLengthMismatchEnds : Prop :=
  ∀ s : State, s.lena ≤ s.capIn → s.lenb ≤ s.capIn → s.lena ≠ s.lenb →
    exec .xor s = .next { s with status := 0x07#8, leno := 0, errpos := 0, errval := 0x00#8, dst := [] }

/-- The model's choice (log entry 6): on operands with bytes that have not been written since reset every command runs all
the same, on a sequence that has the written bytes where there are any. Nothing is said of the other bytes. -/
def Obligations.CommandsRunOnUnwrittenOperands : Prop :=
  ∀ s : State, s.lena ≤ s.capIn →
    (∃ xs d, xs.length = s.lena ∧ Agrees s.srca xs ∧
      exec .hexenc s = .next (complete (hexEncode xs) { s with draws := d })) ∧
    (∃ xs d, xs.length = s.lena ∧ Agrees s.srca xs ∧
      exec .b64enc s = .next (complete (b64Encode xs) { s with draws := d })) ∧
    (s.lena % 2 = 0 → ∃ xs d, xs.length = s.lena ∧ Agrees s.srca xs ∧
      exec .hexdec s = .next (finish (hexDecode xs) { s with draws := d })) ∧
    (s.lena % 4 = 0 → ∃ p xs d, p ≤ 2 ∧ p ≤ s.lena ∧ xs.length = s.lena - p ∧ Agrees s.srca xs ∧
      exec .b64dec s = .next (finish (b64DecodeStripped p xs) { s with draws := d })) ∧
    (s.lenb = s.lena → ∃ xs ys d, xs.length = s.lena ∧ ys.length = s.lena ∧ Agrees s.srca xs ∧ Agrees s.srcb ys ∧
      exec .xor s = .next (complete (List.zipWith xorByte xs ys) { s with draws := d }))

/-! ## All commands -/

/-- 00_scope.md R8: every command completes, with `DONE` set and one of the outcomes it can have (60_exceptions.md R130); an outcome
other than `OK` has no output. -/
def Obligations.EveryCommandCompletes : Prop :=
  ∀ (i : Instr) (s : State), ∃ t, exec i s = .next t ∧ statusDone t.status = 1#1 ∧
    (t.status ≠ 0x01#8 → t.leno = 0) ∧
    t.status ∈ match i with
      | .hexdec => [0x01#8, 0x03#8, 0x05#8, 0x09#8]
      | .hexenc => [0x01#8, 0x09#8]
      | .b64enc => [0x01#8, 0x09#8]
      | .b64dec => [0x01#8, 0x05#8, 0x09#8, 0x0B#8]
      | .xor => [0x01#8, 0x07#8, 0x09#8]

/-- 00_scope.md R6, 30_encoding.md R58, 60_exceptions.md R136: the frame of all five commands. No operand changes, nor `CMD`;
of `DST` only bytes below `LENO` are specified afterwards. -/
def Obligations.CommandFrame : Prop :=
  ∀ (i : Instr) (s t : State), exec i s = .next t →
    t.cmd = s.cmd ∧ t.lena = s.lena ∧ t.lenb = s.lenb ∧ t.capIn = s.capIn ∧ t.pending = s.pending ∧
    t.replies = s.replies ∧ (∀ j, memRead t.srca j = memRead s.srca j) ∧ (∀ j, memRead t.srcb j = memRead s.srcb j) ∧
    (t.status &&& 0xF0#8 = 0x00#8) ∧ ∀ j, memRead t.dst j ≠ none ↔ j < t.leno

/-- 60_exceptions.md R136, 10_state.md R19 to R21: an error leaves no output, and only `InvalidDigit` leaves a detail. -/
def Obligations.ErrorOutcomeLeavesNoOutput : Prop :=
  ∀ (i : Instr) (s t : State), exec i s = .next t →
    (t.status ≠ 0x01#8 → t.leno = 0 ∧ ∀ j, memRead t.dst j = none) ∧
    (t.status ≠ 0x05#8 → t.errpos = 0 ∧ t.errval = 0x00#8)

/-- 60_exceptions.md R132, R138: what `InvalidDigit` records, for written operands. -/
def Obligations.InvalidDigitDetail : Prop :=
  ∀ (i : Instr) (s t : State), OperandsWritten i s → exec i s = .next t → t.status = 0x05#8 →
    t.errpos < s.lena ∧ memRead s.srca t.errpos = some t.errval ∧
    ((i = .hexdec ∧ hexVal t.errval = none ∧
        ∀ q c, q < t.errpos → memRead s.srca q = some c → hexVal c ≠ none) ∨
     (i = .b64dec ∧ b64Val t.errval = none ∧
        ∀ q c, q < t.errpos → memRead s.srca q = some c → b64Val c ≠ none))

/-- 00_scope.md R3: the outcome depends on the operands alone: nothing of an earlier command, nothing at or above the length,
and for four commands nothing of `SRCB`, `LENB`. -/
def Obligations.OutcomeDependsOnOperandsOnly : Prop :=
  ∀ (i : Instr) (s s' t t' : State), s.capIn = s'.capIn → s.lena = s'.lena → OperandsWritten i s →
    (∀ j, j < s.lena → memRead s.srca j = memRead s'.srca j) →
    (i = .xor → s.lenb = s'.lenb ∧ ∀ j, j < s.lenb → memRead s.srcb j = memRead s'.srcb j) →
    exec i s = .next t → exec i s' = .next t' →
    t.dst = t'.dst ∧ t.leno = t'.leno ∧ t.status = t'.status ∧ t.errpos = t'.errpos ∧ t.errval = t'.errval

/-- 20_memory.md R40: running a command again on the same written operands has the same outcome. -/
def Obligations.RepeatedCommandSameOutcome : Prop :=
  ∀ (i : Instr) (s t : State), OperandsWritten i s → exec i s = .next t → exec i t = .next t

/-- 00_scope.md R9: `LEN_W` is the least width for `2 * CAP_IN`, and every output fits `DST` and its length register. -/
def Obligations.OutputFitsDestination : Prop :=
  (∀ cap w : Nat, 2 ≤ cap → (2 * cap < 2 ^ w ↔ Config.lenW cap ≤ w)) ∧
  ∀ (i : Instr) (s t : State), 2 ≤ s.capIn → exec i s = .next t →
    t.leno ≤ Config.capOut s.capIn ∧ t.leno < 2 ^ Config.lenW s.capIn ∧ t.errpos < 2 ^ Config.lenW s.capIn

/-- 95_test_vectors.md S1 (40_hex.md R75) in the block: encode, move the output to `SRCA`, decode. -/
def Obligations.HexRoundTripThroughBlock : Prop :=
  ∀ (s t : State) (xs : List Byte) (m : Memory), xs.length = s.lena → Holds s.srca xs → 2 * s.lena ≤ s.capIn →
    exec .hexenc s = .next t → (∀ j, j < t.leno → memRead m j = memRead t.dst j) →
    ∃ u, exec .hexdec { t with srca := m, lena := t.leno } = .next u ∧
      u.status = 0x01#8 ∧ u.leno = s.lena ∧ ∀ j, memRead u.dst j = xs[j]?

/-- 95_test_vectors.md S1 (42_base64_decode.md R114) in the block. -/
def Obligations.B64RoundTripThroughBlock : Prop :=
  ∀ (s t : State) (xs : List Byte) (m : Memory), xs.length = s.lena → Holds s.srca xs →
    s.lena ≤ s.capIn → 4 * ((s.lena + 2) / 3) ≤ s.capIn →
    exec .b64enc s = .next t → (∀ j, j < t.leno → memRead m j = memRead t.dst j) →
    ∃ u, exec .b64dec { t with srca := m, lena := t.leno } = .next u ∧
      u.status = 0x01#8 ∧ u.leno = s.lena ∧ ∀ j, memRead u.dst j = xs[j]?

/-- 95_test_vectors.md S2 (43_xor.md R121, R123) in the block: `XOR` twice with the same `SRCB` restores the first operand. -/
def Obligations.XorTwiceRestoresFirstOperand : Prop :=
  ∀ (s t : State) (xs ys : List Byte) (m : Memory), xs.length = s.lena → ys.length = s.lenb → s.lenb = s.lena →
    Holds s.srca xs → Holds s.srcb ys → s.lena ≤ s.capIn →
    exec .xor s = .next t → (∀ j, j < t.leno → memRead m j = memRead t.dst j) →
    ∃ u, exec .xor { t with srca := m, lena := t.leno } = .next u ∧
      u.status = 0x01#8 ∧ u.leno = s.lena ∧ ∀ j, memRead u.dst j = xs[j]?

/-! ## The host actions -/

/-- 70_reset_and_hazards.md R156: every register is zero after `RESET` from any state, and in `State.reset`; no buffer byte is
specified (R157). -/
def Obligations.ResetClearsBlock : Prop :=
  (∀ (s : State) (rest : List HostAction), s.pending = .reset :: rest →
    ∃ t, step s = .next t ∧ t.cmd = 0x00#8 ∧ t.status = 0x00#8 ∧ t.lena = 0 ∧ t.lenb = 0 ∧ t.leno = 0 ∧
      t.errpos = 0 ∧ t.errval = 0x00#8 ∧ (∀ j, memRead t.srca j = none) ∧ (∀ j, memRead t.srcb j = none) ∧
      ∀ j, memRead t.dst j = none) ∧
  State.reset.cmd = 0x00#8 ∧ State.reset.status = 0x00#8 ∧ State.reset.lena = 0 ∧ State.reset.lenb = 0 ∧
  State.reset.leno = 0 ∧ State.reset.errpos = 0 ∧ State.reset.errval = 0x00#8

/-- A command, or the reserved word 0, as the very first action after `RESET` (70_reset_and_hazards.md section 1). That `RESET` keeps
`capIn`, `pending`, `replies` and `draws` is the model's choice (log entry 8). -/
def Obligations.FirstCommandAfterReset : Prop :=
  ∀ s : State,
    (∀ i : Instr, runScript [.reset, .wrreg 0 (encode i).toNat] s =
      .next { State.resetWith s.capIn with
        pending := s.pending, replies := s.replies, draws := s.draws, cmd := encode i, status := 0x01#8 }) ∧
    runScript [.reset, .wrreg 0 0] s =
      .next { State.resetWith s.capIn with
        pending := s.pending, replies := s.replies, draws := s.draws, status := 0x09#8 }

/-- 20_memory.md R31: `WRA` and `WRB` change one byte of one buffer. -/
def Obligations.BufferWriteChangesOneByte : Prop :=
  ∀ (s : State) (rest : List HostAction) (i : Nat) (v : Byte), i < s.capIn →
    (s.pending = .wra i v :: rest → ∃ m, step s = .next { s with pending := rest, srca := m } ∧
      ∀ j, memRead m j = if j = i then some v else memRead s.srca j) ∧
    (s.pending = .wrb i v :: rest → ∃ m, step s = .next { s with pending := rest, srcb := m } ∧
      ∀ j, memRead m j = if j = i then some v else memRead s.srcb j)

/-- 20_memory.md R32: `RDA` and `RDB` return the byte last written and change nothing of the block; where none was written since
reset they return some byte (log entry 5). -/
def Obligations.BufferReadReturnsLastWritten : Prop :=
  ∀ (s : State) (rest : List HostAction) (i : Nat), i < s.capIn →
    (s.pending = .rda i :: rest →
      (∀ v, memRead s.srca i = some v →
        step s = .next { s with pending := rest, replies := s.replies ++ [.byte v] }) ∧
      (memRead s.srca i = none → ∃ v,
        step s = .next { s with pending := rest, replies := s.replies ++ [.byte v], draws := s.draws + 1 })) ∧
    (s.pending = .rdb i :: rest →
      (∀ v, memRead s.srcb i = some v →
        step s = .next { s with pending := rest, replies := s.replies ++ [.byte v] }) ∧
      (memRead s.srcb i = none → ∃ v,
        step s = .next { s with pending := rest, replies := s.replies ++ [.byte v], draws := s.draws + 1 }))

/-- 20_memory.md R33: `RDO` returns the output byte after an `OK` outcome below `LENO`, else some byte (log entry 5); it
changes nothing of the block. -/
def Obligations.OutputReadReturnsOutputByte : Prop :=
  ∀ (s : State) (rest : List HostAction) (i : Nat), i < Config.capOut s.capIn → s.pending = .rdo i :: rest →
    (∀ v, s.status = 0x01#8 → i < s.leno → memRead s.dst i = some v →
      step s = .next { s with pending := rest, replies := s.replies ++ [.byte v] }) ∧
    ((s.status ≠ 0x01#8 ∨ s.leno ≤ i) → ∃ v,
      step s = .next { s with pending := rest, replies := s.replies ++ [.byte v], draws := s.draws + 1 })

/-- 20_memory.md R34: a length write changes that register alone; a write to a read-only register changes nothing. -/
def Obligations.RegisterWriteStoresLengthOrIsIgnored : Prop :=
  ∀ (s : State) (rest : List HostAction) (v : Nat),
    (s.pending = .wrreg 2 v :: rest → v < 2 ^ Config.lenW s.capIn →
      step s = .next { s with pending := rest, lena := v }) ∧
    (s.pending = .wrreg 3 v :: rest → v < 2 ^ Config.lenW s.capIn →
      step s = .next { s with pending := rest, lenb := v }) ∧
    (∀ r, r = 1 ∨ r = 6 → s.pending = .wrreg r v :: rest → v < 2 ^ 8 →
      step s = .next { s with pending := rest }) ∧
    (∀ r, r = 4 ∨ r = 5 → s.pending = .wrreg r v :: rest → v < 2 ^ Config.lenW s.capIn →
      step s = .next { s with pending := rest })

/-- 20_memory.md R35: `RDREG` returns the whole register and has no side effect. -/
def Obligations.RegisterReadReturnsWholeRegister : Prop :=
  ∀ (s : State) (rest : List HostAction) (r : Nat) (v : Reply), s.pending = .rdreg r :: rest →
    (r = 0 ∧ v = .byte s.cmd) ∨ (r = 1 ∧ v = .byte s.status) ∨ (r = 2 ∧ v = .len s.lena) ∨
      (r = 3 ∧ v = .len s.lenb) ∨ (r = 4 ∧ v = .len s.leno) ∨ (r = 5 ∧ v = .len s.errpos) ∨
      (r = 6 ∧ v = .byte s.errval) →
    step s = .next { s with pending := rest, replies := s.replies ++ [v] }

/-- 93_implementation_defined.md U5: the block refuses exactly the actions that are not admitted. -/
def Obligations.RefusedExactlyWhenNotAdmitted : Prop :=
  ∀ (s : State) (a : HostAction) (rest : List HostAction), s.pending = a :: rest →
    ((∃ r, step s = .refused r) ↔ a.wf s.capIn = false)

/-- A step takes one action from the head of the host's list, returns at most one value and leaves the capacity (20_memory.md section 7).
The model's choices and deductions in it: the list itself (log entry 3), the replies (log entry 4), that `RESET` too keeps the list's
tail, the replies and the capacity (log entry 8), and that with none pending nothing happens (log entry 12, deduced from
60_exceptions.md section 8). -/
def Obligations.StepTakesOneAction : Prop :=
  (∀ s t : State, step s = .next t → t.pending = s.pending.tail ∧ t.capIn = s.capIn ∧
    ∃ r, t.replies = s.replies ++ r ∧ r.length ≤ 1) ∧
  ∀ s : State, s.pending = [] → step s = .next s

/-- 10_state.md R13, R19 to R21, R24: only a write to `CMD` or `RESET` changes `CMD`, the outcome registers and `DST`. -/
def Obligations.OutcomeChangesOnlyByCommandOrReset : Prop :=
  ∀ (s t : State) (a : HostAction) (rest : List HostAction), s.pending = a :: rest → step s = .next t →
    (∀ v, a ≠ .wrreg 0 v) → a ≠ .reset →
    t.cmd = s.cmd ∧ t.status = s.status ∧ t.leno = s.leno ∧ t.errpos = s.errpos ∧ t.errval = s.errval ∧
    t.dst = s.dst

/-- 20_memory.md R42, 10_state.md R17, R18, R22, R23: an operand changes only by the host's write to it or by `RESET`. -/
def Obligations.OperandsChangeOnlyByHostWrites : Prop :=
  ∀ (s t : State) (a : HostAction) (rest : List HostAction), s.pending = a :: rest → step s = .next t →
    a ≠ .reset →
    ((∀ i v, a ≠ .wra i v) → t.srca = s.srca) ∧ ((∀ i v, a ≠ .wrb i v) → t.srcb = s.srcb) ∧
    ((∀ v, a ≠ .wrreg 2 v) → t.lena = s.lena) ∧ ((∀ v, a ≠ .wrreg 3 v) → t.lenb = s.lenb)

/-- 10_state.md R15: `DONE` is set by every write to `CMD` that the block takes, is cleared by `RESET` alone, and no command reads
it (nor any of `STATUS`). -/
def Obligations.DoneClearedOnlyByReset : Prop :=
  (∀ (s t : State) (v : Nat) (rest : List HostAction), s.pending = .wrreg 0 v :: rest → step s = .next t →
    statusDone t.status = 1#1) ∧
  (∀ (s t : State) (a : HostAction) (rest : List HostAction), s.pending = a :: rest → a ≠ .reset → step s = .next t →
    statusDone s.status = 1#1 → statusDone t.status = 1#1) ∧
  (∀ (s t : State) (rest : List HostAction), s.pending = .reset :: rest → step s = .next t →
    statusDone t.status = 0#1) ∧
  statusDone State.reset.status = 0#1 ∧
  ∀ (i : Instr) (s : State) (v : Byte), exec i { s with status := v } = exec i s

/-- 70_reset_and_hazards.md R157, R162: a careful host is never refused and never observes an unspecified byte. -/
def Obligations.CarefulHostSeesNoFreeByte : Prop :=
  ∀ (s : State) (a : HostAction) (rest : List HostAction), Inv s → s.pending = a :: rest → Careful a s →
    ∃ t, step s = .next t ∧ t.draws = s.draws

/-! ## Invariants -/

/-- The invariants hold after reset, for every capacity of at least 2. -/
def Obligations.ResetMeetsInvariants : Prop :=
  (∀ cap : Nat, 2 ≤ cap → Inv (State.resetWith cap) ∧ OutputText (State.resetWith cap)) ∧
  Inv State.reset ∧ OutputText State.reset

/-- Every step keeps the state invariant: register ranges, the legal `STATUS` values, canonical memories inside their
buffers, output only after `OK`, detail only after `InvalidDigit`. -/
def Obligations.StepKeepsInvariant : Prop := ∀ s t : State, Inv s → step s = .next t → Inv t

/-- Every step keeps the output text in its alphabet (95_test_vectors.md section 6, item 7). -/
def Obligations.StepKeepsOutputText : Prop := ∀ s t : State, OutputText s → step s = .next t → OutputText t

/-! ## Host scripts -/

/-- 30_encoding.md R59: a script that runs through is what as many steps do with its lines pending, whatever stands behind them. -/
def Obligations.ScriptRunsStepByStep : Prop :=
  ∀ (as rest : List HostAction) (s t : State), runScript as { s with pending := rest } = .next t →
    Host.Core.run Sys2Proof.core as.length ({ s with pending := as ++ rest } : State) = .next t

/-- 30_encoding.md R61: `LOADA` and `LOADB` make a sequence that fits the operand, and have no expansion otherwise. -/
def Obligations.LoadScriptLoadsOperand : Prop :=
  ∀ (s : State) (xs : List Byte),
    (xs.length ≤ s.capIn →
      (∃ script m, loadScript s.capIn .a xs = some script ∧
        runScript script s = .next { s with srca := m, lena := xs.length } ∧ Holds m xs ∧
        ∀ j, xs.length ≤ j → memRead m j = memRead s.srca j) ∧
      (∃ script m, loadScript s.capIn .b xs = some script ∧
        runScript script s = .next { s with srcb := m, lenb := xs.length } ∧ Holds m xs ∧
        ∀ j, xs.length ≤ j → memRead m j = memRead s.srcb j)) ∧
    (s.capIn < xs.length → loadScript s.capIn .a xs = none ∧ loadScript s.capIn .b xs = none)

/-- 30_encoding.md R62: `MOVOA` and `MOVOB` make the last output the next operand, leave the block's outcome as it is, and have
no expansion where the output does not fit. -/
def Obligations.MoveScriptFeedsOutputBack : Prop :=
  ∀ s : State, Inv s →
    (s.leno ≤ s.capIn →
      (∃ script m rs, moveScript .a s = some script ∧
        runScript script s = .next { s with srca := m, lena := s.leno, replies := s.replies ++ rs } ∧
        ∀ j, memRead m j = if j < s.leno then memRead s.dst j else memRead s.srca j) ∧
      (∃ script m rs, moveScript .b s = some script ∧
        runScript script s = .next { s with srcb := m, lenb := s.leno, replies := s.replies ++ rs } ∧
        ∀ j, memRead m j = if j < s.leno then memRead s.dst j else memRead s.srcb j)) ∧
    (s.capIn < s.leno → moveScript .a s = none ∧ moveScript .b s = none)
end

