-- ==== Sys2Proof/Laws/Memory.lean ====
section
/-! SUPPORT. Byte memories: read after write, the canonical form and the memory of a sequence. -/

namespace Sys2Proof.Machine

@[simp] theorem memRead_nil (i : Nat) : memRead [] i = none := rfl

theorem memRead_cons (i j : Nat) (v : Byte) (m : Memory) :
    memRead ((i, v) :: m) j = if i = j then some v else memRead m j := rfl

theorem memRead_memWrite_same (m : Memory) (i : Nat) (v : Byte) : memRead (memWrite m i v) i = some v := by
  induction m with
  | nil => simp [memWrite, memRead]
  | cons c rest ih =>
    obtain ⟨j, w⟩ := c
    simp only [memWrite]
    split
    · simp [memRead]
    · split
      · simp [memRead]
      · rename_i h1 h2
        simp [memRead, ih, Ne.symm h2]

theorem memRead_memWrite_other (m : Memory) {i j : Nat} (v : Byte) (h : j ≠ i) :
    memRead (memWrite m i v) j = memRead m j := by
  induction m with
  | nil => simp [memWrite, memRead, Ne.symm h]
  | cons c rest ih =>
    obtain ⟨k, w⟩ := c
    simp only [memWrite]
    split
    · simp [memRead, Ne.symm h]
    · split
      · rename_i h2
        subst h2
        simp [memRead, Ne.symm h]
      · simp [memRead, ih]

/-- What a read after a write returns. -/
theorem memRead_memWrite (m : Memory) (i j : Nat) (v : Byte) :
    memRead (memWrite m i v) j = if j = i then some v else memRead m j := by
  by_cases h : j = i
  · subst h; simp [memRead_memWrite_same]
  · simp [memRead_memWrite_other m v h, h]

/-- A canonical memory lists its first index below every other. -/
theorem Memory.wf_cons {i : Nat} {v : Byte} {m : Memory} :
    Memory.wf ((i, v) :: m) = true ↔ Memory.wf m = true ∧ ∀ j w, (j, w) ∈ m → i < j := by
  induction m generalizing i v with
  | nil => simp [Memory.wf]
  | cons c rest ih =>
    obtain ⟨j, w⟩ := c
    simp only [Memory.wf, Bool.and_eq_true, decide_eq_true_eq]
    constructor
    · rintro ⟨hij, hw⟩
      refine ⟨hw, ?_⟩
      intro k u hk
      rcases List.mem_cons.1 hk with h | h
      · cases h; exact hij
      · exact Nat.lt_trans hij ((ih.1 hw).2 k u h)
    · rintro ⟨hw, hall⟩
      exact ⟨hall j w (by simp), hw⟩

theorem mem_memWrite {m : Memory} {i j : Nat} {v w : Byte} (h : (j, w) ∈ memWrite m i v) :
    j = i ∨ (j, w) ∈ m := by
  induction m with
  | nil => simp only [memWrite, List.mem_singleton, Prod.mk.injEq] at h; exact .inl h.1
  | cons c rest ih =>
    obtain ⟨k, u⟩ := c
    simp only [memWrite] at h
    split at h
    · rcases List.mem_cons.1 h with h | h
      · cases h; exact .inl rfl
      · exact .inr h
    · split at h
      · rcases List.mem_cons.1 h with h | h
        · cases h; exact .inl rfl
        · exact .inr (List.mem_cons_of_mem _ h)
      · rcases List.mem_cons.1 h with h | h
        · exact .inr (by rw [h]; exact List.mem_cons_self)
        · exact (ih h).imp_right (List.mem_cons_of_mem _)

/-- A write keeps the canonical form. -/
theorem memWrite_wf {m : Memory} (i : Nat) (v : Byte) (h : Memory.wf m = true) :
    Memory.wf (memWrite m i v) = true := by
  induction m with
  | nil => simp [memWrite, Memory.wf]
  | cons c rest ih =>
    obtain ⟨j, w⟩ := c
    obtain ⟨hrest, hall⟩ := Memory.wf_cons.1 h
    simp only [memWrite]
    split
    · rename_i hlt
      refine Memory.wf_cons.2 ⟨h, ?_⟩
      intro k u hk
      rcases List.mem_cons.1 hk with hk | hk
      · cases hk; exact hlt
      · exact Nat.lt_trans hlt (hall k u hk)
    · split
      · rename_i heq
        subst heq
        exact Memory.wf_cons.2 ⟨hrest, hall⟩
      · refine Memory.wf_cons.2 ⟨ih hrest, ?_⟩
        intro k u hk
        rcases mem_memWrite hk with rfl | hk
        · omega
        · exact hall k u hk

theorem mem_memOf {start i : Nat} {v : Byte} {xs : List Byte} (h : (i, v) ∈ memOf start xs) : start ≤ i := by
  induction xs generalizing start with
  | nil => simp [memOf] at h
  | cons x rest ih =>
    rcases List.mem_cons.1 h with h | h
    · cases h; exact Nat.le_refl _
    · exact Nat.le_of_succ_le (ih h)

/-- The memory of a sequence is in canonical form. -/
theorem memOf_wf (start : Nat) (xs : List Byte) : Memory.wf (memOf start xs) = true := by
  induction xs generalizing start with
  | nil => rfl
  | cons x rest ih => exact Memory.wf_cons.2 ⟨ih _, fun j w h => mem_memOf h⟩

theorem memRead_memOf_below {start i : Nat} (xs : List Byte) (h : i < start) : memRead (memOf start xs) i = none := by
  induction xs generalizing start with
  | nil => rfl
  | cons x rest ih =>
    simp only [memOf, memRead]
    rw [if_neg (by omega), ih (by omega)]

/-- The memory of a sequence holds its bytes in index order and nothing else. -/
theorem memRead_memOf (start i : Nat) (xs : List Byte) : memRead (memOf start xs) (start + i) = xs[i]? := by
  induction xs generalizing start i with
  | nil => rfl
  | cons x rest ih =>
    cases i with
    | zero => simp [memOf, memRead]
    | succ i =>
      simp only [memOf, memRead, List.getElem?_cons_succ]
      rw [if_neg (by omega), ← ih (start + 1) i]
      congr 1
      omega

@[simp] theorem memRead_memOf_zero (i : Nat) (xs : List Byte) : memRead (memOf 0 xs) i = xs[i]? := by
  simpa using memRead_memOf 0 i xs

/-- The memory of a sequence lists consecutive indices. -/
theorem memOf_indices (start : Nat) (xs : List Byte) :
    (memOf start xs).map Prod.fst = List.range' start xs.length := by
  induction xs generalizing start with
  | nil => rfl
  | cons x rest ih => simp [memOf, ih, List.range'_succ]

end Sys2Proof.Machine
end

