-- ==== Sys2Proof/Laws/State.lean ====
section
/-! SUPPORT. What each named state update does to each field: one lemma per field per update. -/

namespace Sys2Proof.Machine

variable (s : State)

/-! ### setCmd -/

@[simp] theorem State.setCmd_cmd (w : Byte) : (s.setCmd w).cmd = w := rfl
@[simp] theorem State.setCmd_status (w : Byte) : (s.setCmd w).status = s.status := rfl
@[simp] theorem State.setCmd_lena (w : Byte) : (s.setCmd w).lena = s.lena := rfl
@[simp] theorem State.setCmd_lenb (w : Byte) : (s.setCmd w).lenb = s.lenb := rfl
@[simp] theorem State.setCmd_leno (w : Byte) : (s.setCmd w).leno = s.leno := rfl
@[simp] theorem State.setCmd_errpos (w : Byte) : (s.setCmd w).errpos = s.errpos := rfl
@[simp] theorem State.setCmd_errval (w : Byte) : (s.setCmd w).errval = s.errval := rfl
@[simp] theorem State.setCmd_srca (w : Byte) : (s.setCmd w).srca = s.srca := rfl
@[simp] theorem State.setCmd_srcb (w : Byte) : (s.setCmd w).srcb = s.srcb := rfl
@[simp] theorem State.setCmd_dst (w : Byte) : (s.setCmd w).dst = s.dst := rfl
@[simp] theorem State.setCmd_capIn (w : Byte) : (s.setCmd w).capIn = s.capIn := rfl
@[simp] theorem State.setCmd_pending (w : Byte) : (s.setCmd w).pending = s.pending := rfl
@[simp] theorem State.setCmd_replies (w : Byte) : (s.setCmd w).replies = s.replies := rfl
@[simp] theorem State.setCmd_draws (w : Byte) : (s.setCmd w).draws = s.draws := rfl

/-! ### setPending -/

@[simp] theorem State.setPending_cmd (as : List HostAction) : (s.setPending as).cmd = s.cmd := rfl
@[simp] theorem State.setPending_status (as : List HostAction) : (s.setPending as).status = s.status := rfl
@[simp] theorem State.setPending_lena (as : List HostAction) : (s.setPending as).lena = s.lena := rfl
@[simp] theorem State.setPending_lenb (as : List HostAction) : (s.setPending as).lenb = s.lenb := rfl
@[simp] theorem State.setPending_leno (as : List HostAction) : (s.setPending as).leno = s.leno := rfl
@[simp] theorem State.setPending_errpos (as : List HostAction) : (s.setPending as).errpos = s.errpos := rfl
@[simp] theorem State.setPending_errval (as : List HostAction) : (s.setPending as).errval = s.errval := rfl
@[simp] theorem State.setPending_srca (as : List HostAction) : (s.setPending as).srca = s.srca := rfl
@[simp] theorem State.setPending_srcb (as : List HostAction) : (s.setPending as).srcb = s.srcb := rfl
@[simp] theorem State.setPending_dst (as : List HostAction) : (s.setPending as).dst = s.dst := rfl
@[simp] theorem State.setPending_capIn (as : List HostAction) : (s.setPending as).capIn = s.capIn := rfl
@[simp] theorem State.setPending_pending (as : List HostAction) : (s.setPending as).pending = as := rfl
@[simp] theorem State.setPending_replies (as : List HostAction) : (s.setPending as).replies = s.replies := rfl
@[simp] theorem State.setPending_draws (as : List HostAction) : (s.setPending as).draws = s.draws := rfl

/-! ### reply -/

@[simp] theorem State.reply_cmd (r : Reply) : (s.reply r).cmd = s.cmd := rfl
@[simp] theorem State.reply_status (r : Reply) : (s.reply r).status = s.status := rfl
@[simp] theorem State.reply_lena (r : Reply) : (s.reply r).lena = s.lena := rfl
@[simp] theorem State.reply_lenb (r : Reply) : (s.reply r).lenb = s.lenb := rfl
@[simp] theorem State.reply_leno (r : Reply) : (s.reply r).leno = s.leno := rfl
@[simp] theorem State.reply_errpos (r : Reply) : (s.reply r).errpos = s.errpos := rfl
@[simp] theorem State.reply_errval (r : Reply) : (s.reply r).errval = s.errval := rfl
@[simp] theorem State.reply_srca (r : Reply) : (s.reply r).srca = s.srca := rfl
@[simp] theorem State.reply_srcb (r : Reply) : (s.reply r).srcb = s.srcb := rfl
@[simp] theorem State.reply_dst (r : Reply) : (s.reply r).dst = s.dst := rfl
@[simp] theorem State.reply_capIn (r : Reply) : (s.reply r).capIn = s.capIn := rfl
@[simp] theorem State.reply_pending (r : Reply) : (s.reply r).pending = s.pending := rfl
@[simp] theorem State.reply_replies (r : Reply) : (s.reply r).replies = s.replies ++ [r] := rfl
@[simp] theorem State.reply_draws (r : Reply) : (s.reply r).draws = s.draws := rfl

/-! ### drawn -/

@[simp] theorem State.drawn_cmd : (s.drawn).cmd = s.cmd := rfl
@[simp] theorem State.drawn_status : (s.drawn).status = s.status := rfl
@[simp] theorem State.drawn_lena : (s.drawn).lena = s.lena := rfl
@[simp] theorem State.drawn_lenb : (s.drawn).lenb = s.lenb := rfl
@[simp] theorem State.drawn_leno : (s.drawn).leno = s.leno := rfl
@[simp] theorem State.drawn_errpos : (s.drawn).errpos = s.errpos := rfl
@[simp] theorem State.drawn_errval : (s.drawn).errval = s.errval := rfl
@[simp] theorem State.drawn_srca : (s.drawn).srca = s.srca := rfl
@[simp] theorem State.drawn_srcb : (s.drawn).srcb = s.srcb := rfl
@[simp] theorem State.drawn_dst : (s.drawn).dst = s.dst := rfl
@[simp] theorem State.drawn_capIn : (s.drawn).capIn = s.capIn := rfl
@[simp] theorem State.drawn_pending : (s.drawn).pending = s.pending := rfl
@[simp] theorem State.drawn_replies : (s.drawn).replies = s.replies := rfl
@[simp] theorem State.drawn_draws : (s.drawn).draws = s.draws + 1 := rfl

/-! ### setSrc_a -/

@[simp] theorem State.setSrc_a_cmd (m : Memory) : (s.setSrc m .a).cmd = s.cmd := rfl
@[simp] theorem State.setSrc_a_status (m : Memory) : (s.setSrc m .a).status = s.status := rfl
@[simp] theorem State.setSrc_a_lena (m : Memory) : (s.setSrc m .a).lena = s.lena := rfl
@[simp] theorem State.setSrc_a_lenb (m : Memory) : (s.setSrc m .a).lenb = s.lenb := rfl
@[simp] theorem State.setSrc_a_leno (m : Memory) : (s.setSrc m .a).leno = s.leno := rfl
@[simp] theorem State.setSrc_a_errpos (m : Memory) : (s.setSrc m .a).errpos = s.errpos := rfl
@[simp] theorem State.setSrc_a_errval (m : Memory) : (s.setSrc m .a).errval = s.errval := rfl
@[simp] theorem State.setSrc_a_srca (m : Memory) : (s.setSrc m .a).srca = m := rfl
@[simp] theorem State.setSrc_a_srcb (m : Memory) : (s.setSrc m .a).srcb = s.srcb := rfl
@[simp] theorem State.setSrc_a_dst (m : Memory) : (s.setSrc m .a).dst = s.dst := rfl
@[simp] theorem State.setSrc_a_capIn (m : Memory) : (s.setSrc m .a).capIn = s.capIn := rfl
@[simp] theorem State.setSrc_a_pending (m : Memory) : (s.setSrc m .a).pending = s.pending := rfl
@[simp] theorem State.setSrc_a_replies (m : Memory) : (s.setSrc m .a).replies = s.replies := rfl
@[simp] theorem State.setSrc_a_draws (m : Memory) : (s.setSrc m .a).draws = s.draws := rfl

/-! ### setSrc_b -/

@[simp] theorem State.setSrc_b_cmd (m : Memory) : (s.setSrc m .b).cmd = s.cmd := rfl
@[simp] theorem State.setSrc_b_status (m : Memory) : (s.setSrc m .b).status = s.status := rfl
@[simp] theorem State.setSrc_b_lena (m : Memory) : (s.setSrc m .b).lena = s.lena := rfl
@[simp] theorem State.setSrc_b_lenb (m : Memory) : (s.setSrc m .b).lenb = s.lenb := rfl
@[simp] theorem State.setSrc_b_leno (m : Memory) : (s.setSrc m .b).leno = s.leno := rfl
@[simp] theorem State.setSrc_b_errpos (m : Memory) : (s.setSrc m .b).errpos = s.errpos := rfl
@[simp] theorem State.setSrc_b_errval (m : Memory) : (s.setSrc m .b).errval = s.errval := rfl
@[simp] theorem State.setSrc_b_srca (m : Memory) : (s.setSrc m .b).srca = s.srca := rfl
@[simp] theorem State.setSrc_b_srcb (m : Memory) : (s.setSrc m .b).srcb = m := rfl
@[simp] theorem State.setSrc_b_dst (m : Memory) : (s.setSrc m .b).dst = s.dst := rfl
@[simp] theorem State.setSrc_b_capIn (m : Memory) : (s.setSrc m .b).capIn = s.capIn := rfl
@[simp] theorem State.setSrc_b_pending (m : Memory) : (s.setSrc m .b).pending = s.pending := rfl
@[simp] theorem State.setSrc_b_replies (m : Memory) : (s.setSrc m .b).replies = s.replies := rfl
@[simp] theorem State.setSrc_b_draws (m : Memory) : (s.setSrc m .b).draws = s.draws := rfl

/-! ### setLen_a -/

@[simp] theorem State.setLen_a_cmd (n : Nat) : (s.setLen n .a).cmd = s.cmd := rfl
@[simp] theorem State.setLen_a_status (n : Nat) : (s.setLen n .a).status = s.status := rfl
@[simp] theorem State.setLen_a_lena (n : Nat) : (s.setLen n .a).lena = n := rfl
@[simp] theorem State.setLen_a_lenb (n : Nat) : (s.setLen n .a).lenb = s.lenb := rfl
@[simp] theorem State.setLen_a_leno (n : Nat) : (s.setLen n .a).leno = s.leno := rfl
@[simp] theorem State.setLen_a_errpos (n : Nat) : (s.setLen n .a).errpos = s.errpos := rfl
@[simp] theorem State.setLen_a_errval (n : Nat) : (s.setLen n .a).errval = s.errval := rfl
@[simp] theorem State.setLen_a_srca (n : Nat) : (s.setLen n .a).srca = s.srca := rfl
@[simp] theorem State.setLen_a_srcb (n : Nat) : (s.setLen n .a).srcb = s.srcb := rfl
@[simp] theorem State.setLen_a_dst (n : Nat) : (s.setLen n .a).dst = s.dst := rfl
@[simp] theorem State.setLen_a_capIn (n : Nat) : (s.setLen n .a).capIn = s.capIn := rfl
@[simp] theorem State.setLen_a_pending (n : Nat) : (s.setLen n .a).pending = s.pending := rfl
@[simp] theorem State.setLen_a_replies (n : Nat) : (s.setLen n .a).replies = s.replies := rfl
@[simp] theorem State.setLen_a_draws (n : Nat) : (s.setLen n .a).draws = s.draws := rfl

/-! ### setLen_b -/

@[simp] theorem State.setLen_b_cmd (n : Nat) : (s.setLen n .b).cmd = s.cmd := rfl
@[simp] theorem State.setLen_b_status (n : Nat) : (s.setLen n .b).status = s.status := rfl
@[simp] theorem State.setLen_b_lena (n : Nat) : (s.setLen n .b).lena = s.lena := rfl
@[simp] theorem State.setLen_b_lenb (n : Nat) : (s.setLen n .b).lenb = n := rfl
@[simp] theorem State.setLen_b_leno (n : Nat) : (s.setLen n .b).leno = s.leno := rfl
@[simp] theorem State.setLen_b_errpos (n : Nat) : (s.setLen n .b).errpos = s.errpos := rfl
@[simp] theorem State.setLen_b_errval (n : Nat) : (s.setLen n .b).errval = s.errval := rfl
@[simp] theorem State.setLen_b_srca (n : Nat) : (s.setLen n .b).srca = s.srca := rfl
@[simp] theorem State.setLen_b_srcb (n : Nat) : (s.setLen n .b).srcb = s.srcb := rfl
@[simp] theorem State.setLen_b_dst (n : Nat) : (s.setLen n .b).dst = s.dst := rfl
@[simp] theorem State.setLen_b_capIn (n : Nat) : (s.setLen n .b).capIn = s.capIn := rfl
@[simp] theorem State.setLen_b_pending (n : Nat) : (s.setLen n .b).pending = s.pending := rfl
@[simp] theorem State.setLen_b_replies (n : Nat) : (s.setLen n .b).replies = s.replies := rfl
@[simp] theorem State.setLen_b_draws (n : Nat) : (s.setLen n .b).draws = s.draws := rfl

/-! ### setOutcome -/

@[simp] theorem State.setOutcome_cmd (st : Byte) (n p : Nat) (v : Byte) (m : Memory) : (s.setOutcome st n p v m).cmd = s.cmd := rfl
@[simp] theorem State.setOutcome_status (st : Byte) (n p : Nat) (v : Byte) (m : Memory) : (s.setOutcome st n p v m).status = st := rfl
@[simp] theorem State.setOutcome_lena (st : Byte) (n p : Nat) (v : Byte) (m : Memory) : (s.setOutcome st n p v m).lena = s.lena := rfl
@[simp] theorem State.setOutcome_lenb (st : Byte) (n p : Nat) (v : Byte) (m : Memory) : (s.setOutcome st n p v m).lenb = s.lenb := rfl
@[simp] theorem State.setOutcome_leno (st : Byte) (n p : Nat) (v : Byte) (m : Memory) : (s.setOutcome st n p v m).leno = n := rfl
@[simp] theorem State.setOutcome_errpos (st : Byte) (n p : Nat) (v : Byte) (m : Memory) : (s.setOutcome st n p v m).errpos = p := rfl
@[simp] theorem State.setOutcome_errval (st : Byte) (n p : Nat) (v : Byte) (m : Memory) : (s.setOutcome st n p v m).errval = v := rfl
@[simp] theorem State.setOutcome_srca (st : Byte) (n p : Nat) (v : Byte) (m : Memory) : (s.setOutcome st n p v m).srca = s.srca := rfl
@[simp] theorem State.setOutcome_srcb (st : Byte) (n p : Nat) (v : Byte) (m : Memory) : (s.setOutcome st n p v m).srcb = s.srcb := rfl
@[simp] theorem State.setOutcome_dst (st : Byte) (n p : Nat) (v : Byte) (m : Memory) : (s.setOutcome st n p v m).dst = m := rfl
@[simp] theorem State.setOutcome_capIn (st : Byte) (n p : Nat) (v : Byte) (m : Memory) : (s.setOutcome st n p v m).capIn = s.capIn := rfl
@[simp] theorem State.setOutcome_pending (st : Byte) (n p : Nat) (v : Byte) (m : Memory) : (s.setOutcome st n p v m).pending = s.pending := rfl
@[simp] theorem State.setOutcome_replies (st : Byte) (n p : Nat) (v : Byte) (m : Memory) : (s.setOutcome st n p v m).replies = s.replies := rfl
@[simp] theorem State.setOutcome_draws (st : Byte) (n p : Nat) (v : Byte) (m : Memory) : (s.setOutcome st n p v m).draws = s.draws := rfl

/-! ### resetBlock -/

@[simp] theorem State.resetBlock_cmd : (resetBlock s).cmd = 0#8 := rfl
@[simp] theorem State.resetBlock_status : (resetBlock s).status = 0#8 := rfl
@[simp] theorem State.resetBlock_lena : (resetBlock s).lena = 0 := rfl
@[simp] theorem State.resetBlock_lenb : (resetBlock s).lenb = 0 := rfl
@[simp] theorem State.resetBlock_leno : (resetBlock s).leno = 0 := rfl
@[simp] theorem State.resetBlock_errpos : (resetBlock s).errpos = 0 := rfl
@[simp] theorem State.resetBlock_errval : (resetBlock s).errval = 0#8 := rfl
@[simp] theorem State.resetBlock_srca : (resetBlock s).srca = [] := rfl
@[simp] theorem State.resetBlock_srcb : (resetBlock s).srcb = [] := rfl
@[simp] theorem State.resetBlock_dst : (resetBlock s).dst = [] := rfl
@[simp] theorem State.resetBlock_capIn : (resetBlock s).capIn = s.capIn := rfl
@[simp] theorem State.resetBlock_pending : (resetBlock s).pending = s.pending := rfl
@[simp] theorem State.resetBlock_replies : (resetBlock s).replies = s.replies := rfl
@[simp] theorem State.resetBlock_draws : (resetBlock s).draws = s.draws := rfl

/-! ### Reading through the accessors -/

@[simp] theorem State.src_a : s.src .a = s.srca := rfl
@[simp] theorem State.src_b : s.src .b = s.srcb := rfl
@[simp] theorem State.len_a : s.len .a = s.lena := rfl
@[simp] theorem State.len_b : s.len .b = s.lenb := rfl

end Sys2Proof.Machine
end

