-- ==== Sys2Proof/Laws/Operands.lean ====
section
/-! SUPPORT. What reading operands can do: it changes nothing but the count of free bytes, and on written bytes nothing at all. -/

namespace Sys2Proof.Machine

/-- A state that differs from `s` at most in the count of free bytes drawn. -/
def OnlyDraws (s t : State) : Prop := ∃ d, t = { s with draws := d }

theorem OnlyDraws.rfl_of (s : State) : OnlyDraws s s := ⟨s.draws, rfl⟩

theorem OnlyDraws.trans_of {s t u : State} (h : OnlyDraws s t) (h' : OnlyDraws t u) : OnlyDraws s u := by
  obtain ⟨d, rfl⟩ := h
  obtain ⟨d', rfl⟩ := h'
  exact ⟨d', rfl⟩

theorem OnlyDraws.src_eq {s t : State} (h : OnlyDraws s t) (buf : Buf) : t.src buf = s.src buf := by
  obtain ⟨d, rfl⟩ := h
  cases buf <;> rfl

theorem OnlyDraws.len_eq {s t : State} (h : OnlyDraws s t) (buf : Buf) : t.len buf = s.len buf := by
  obtain ⟨d, rfl⟩ := h
  cases buf <;> rfl

/-- A specified value is taken as it is. -/
@[simp] theorem valueOrFree_some (w : Byte) (s : State) : valueOrFree (some w) s = (w, s) := rfl

/-- An unspecified one is the next free byte. -/
@[simp] theorem valueOrFree_none (s : State) : valueOrFree none s = (Config.freeByte s.draws, s.drawn) := rfl

theorem valueOrFree_onlyDraws (v : Option Byte) (s : State) : OnlyDraws s (valueOrFree v s).2 := by
  cases v with
  | none => exact ⟨s.draws + 1, rfl⟩
  | some w => exact OnlyDraws.rfl_of s

theorem readSrc_written {buf : Buf} {i : Nat} {s : State} {v : Byte} (h : memRead (s.src buf) i = some v) :
    readSrc buf i s = (v, s) := by
  simp [readSrc, h]

/-- One read of a source byte: the byte agrees with the buffer, the state changes at most in the draws. -/
theorem readSrc_spec (buf : Buf) (i : Nat) (s : State) :
    OnlyDraws s (readSrc buf i s).2 ∧ ∀ v, memRead (s.src buf) i = some v → (readSrc buf i s).1 = v := by
  refine ⟨valueOrFree_onlyDraws _ _, ?_⟩
  intro v h
  rw [readSrc_written h]

/-- A range read: as many bytes as asked for, each agreeing with the buffer, the state changed at most in the draws. -/
theorem readRange_spec (buf : Buf) (start count : Nat) (s : State) :
    OnlyDraws s (readRange buf start count s).2 ∧
    (readRange buf start count s).1.length = count ∧
    ∀ i v, i < count → memRead (s.src buf) (start + i) = some v → (readRange buf start count s).1[i]? = some v := by
  induction count generalizing start s with
  | zero => exact ⟨OnlyDraws.rfl_of s, rfl, by intro i v h; omega⟩
  | succ count ih =>
    obtain ⟨h1, hv⟩ := readSrc_spec buf start s
    obtain ⟨h2, hlen, hget⟩ := ih (start + 1) (readSrc buf start s).2
    simp only [readRange]
    refine ⟨h1.trans_of h2, by simp [hlen], ?_⟩
    intro i v hi hm
    cases i with
    | zero => simp [hv v (by simpa using hm)]
    | succ i =>
      rw [List.getElem?_cons_succ]
      refine hget i v (by omega) ?_
      rw [h1.src_eq]
      rw [← hm]
      congr 1
      omega

/-! ## Reads as functions of the buffer and the draws alone -/

/-- What a read of byte `i` of the memory `m` returns when `d` free bytes have been drawn, and how many have been after it. -/
def drawByte (m : Memory) (i d : Nat) : Byte × Nat :=
  match memRead m i with
  | some v => (v, d)
  | none => (Config.freeByte d, d + 1)

/-- The same for a range. -/
def drawRange (m : Memory) (start : Nat) : Nat → Nat → List Byte × Nat
  | 0, d => ([], d)
  | count + 1, d =>
    ((drawByte m start d).1 :: (drawRange m (start + 1) count (drawByte m start d).2).1,
      (drawRange m (start + 1) count (drawByte m start d).2).2)

theorem readSrc_eq (buf : Buf) (i : Nat) (s : State) :
    readSrc buf i s =
      ((drawByte (s.src buf) i s.draws).1, { s with draws := (drawByte (s.src buf) i s.draws).2 }) := by
  unfold readSrc drawByte
  cases memRead (s.src buf) i <;> rfl

/-- A range read sees the buffer and the draws and nothing else of the state, and changes the draws alone. -/
theorem readRange_eq (buf : Buf) (start count : Nat) (s : State) :
    readRange buf start count s =
      ((drawRange (s.src buf) start count s.draws).1,
        { s with draws := (drawRange (s.src buf) start count s.draws).2 }) := by
  induction count generalizing start s with
  | zero => rfl
  | succ count ih =>
    have hsrc : ({ s with draws := (drawByte (s.src buf) start s.draws).2 } : State).src buf = s.src buf := by
      cases buf <;> rfl
    simp [readRange, readSrc_eq, ih, hsrc, drawRange]

theorem readOperand_eq (buf : Buf) (s : State) :
    readOperand buf s =
      ((drawRange (s.src buf) 0 (s.len buf) s.draws).1,
        { s with draws := (drawRange (s.src buf) 0 (s.len buf) s.draws).2 }) :=
  readRange_eq buf 0 (s.len buf) s

theorem drawRange_length (m : Memory) (start count d : Nat) : (drawRange m start count d).1.length = count := by
  induction count generalizing start d with
  | zero => rfl
  | succ count ih => simp [drawRange, ih]

/-- On written bytes nothing is drawn. -/
theorem drawRange_written {m : Memory} {start d : Nat} (xs : List Byte)
    (h : ∀ i, i < xs.length → memRead m (start + i) = xs[i]?) : drawRange m start xs.length d = (xs, d) := by
  induction xs generalizing start with
  | nil => rfl
  | cons x rest ih =>
    have h0 : memRead m start = some x := by simpa using h 0 (by simp)
    have hr := ih (start := start + 1) (by
      intro i hi
      have := h (i + 1) (by simpa using hi)
      simpa [Nat.add_assoc, Nat.add_comm 1 i] using this)
    simp [drawRange, drawByte, h0, hr]

/-- A range of written bytes reads as those bytes and changes nothing. -/
theorem readRange_written {buf : Buf} {start : Nat} {s : State} (xs : List Byte)
    (h : ∀ i, i < xs.length → memRead (s.src buf) (start + i) = xs[i]?) :
    readRange buf start xs.length s = (xs, s) := by
  induction xs generalizing start with
  | nil => rfl
  | cons x rest ih =>
    have h0 : memRead (s.src buf) start = some x := by simpa using h 0 (by simp)
    have hr := ih (start := start + 1) (by
      intro i hi
      have := h (i + 1) (by simpa using hi)
      simpa [Nat.add_assoc, Nat.add_comm 1 i] using this)
    simp [readRange, readSrc_written h0, hr]

/-- A written operand reads as itself and changes nothing. -/
theorem readOperand_written {buf : Buf} {s : State} {xs : List Byte} (hm : Holds (s.src buf) xs)
    (hl : xs.length = s.len buf) : readOperand buf s = (xs, s) := by
  rw [readOperand, ← hl]
  exact readRange_written xs (by simpa [Holds] using hm)

/-- Any operand read: as long as the length register says, agreeing with the buffer, the state changed at most in the draws. -/
theorem readOperand_spec (buf : Buf) (s : State) :
    OnlyDraws s (readOperand buf s).2 ∧ (readOperand buf s).1.length = s.len buf ∧
    Agrees (s.src buf) (readOperand buf s).1 := by
  obtain ⟨h1, h2, h3⟩ := readRange_spec buf 0 (s.len buf) s
  refine ⟨h1, h2, ?_⟩
  intro i v hi hm
  exact h3 i v (by simpa [readOperand, h2] using hi) (by simpa using hm)

/-- Every operand that is written everywhere below its length is held by some sequence of that length. -/
theorem OperandWritten.holds {buf : Buf} {s : State} (h : OperandWritten buf s) :
    ∃ xs : List Byte, xs.length = s.len buf ∧ Holds (s.src buf) xs := by
  refine ⟨(List.range (s.len buf)).map (fun i => (memRead (s.src buf) i).getD 0#8), by simp, ?_⟩
  intro i hi
  simp only [List.length_map, List.length_range] at hi
  obtain ⟨v, hv⟩ := Option.ne_none_iff_exists'.1 (h i hi)
  simp [hi, hv]

end Sys2Proof.Machine
end

