-- ==== Sys2Proof/Laws/Outcome.lean ====
section
/-! SUPPORT. How a command ends, said once: `complete`, `raise`, `finish`, the length admission, and what a command body can do. -/

namespace Sys2Proof.Machine

@[simp] theorem statusByte_ok : statusByte 0#3 1#1 = 0x01#8 := by decide

/-- The five error values of `STATUS`. -/
theorem statusByte_err (e : CodecError) :
    statusByte (errCode e) 1#1 = match e with
      | .oddLength => 0x03#8
      | .invalidDigit _ _ => 0x05#8
      | .lengthMismatch _ _ => 0x07#8
      | .illegalCmd => 0x09#8
      | .badLength => 0x0B#8 := by
  cases e with
  | oddLength => rfl
  | invalidDigit pos val => exact (by decide : statusByte 2#3 1#1 = 0x05#8)
  | lengthMismatch nx ny => exact (by decide : statusByte 3#3 1#1 = 0x07#8)
  | illegalCmd => rfl
  | badLength => rfl

/-- What success writes, in full. -/
theorem complete_eq (out : List Byte) (s : State) :
    complete out s =
      { s with status := 0x01#8, leno := out.length, errpos := 0, errval := 0x00#8, dst := memOf 0 out } := by
  simp [complete, State.setOutcome]

/-- What an error writes, in full. -/
theorem raise_eq (e : CodecError) (s : State) :
    raise e s =
      { s with status := statusByte (errCode e) 1#1, leno := 0, errpos := errPos e, errval := errVal e, dst := [] } := rfl

/-! ## An outcome, field by field -/

/-- `STATUS` after a result. -/
def resStatus : Except CodecError (List Byte) → Byte
  | .ok _ => 0x01#8
  | .error e => statusByte (errCode e) 1#1

/-- The output of a result: none on an error. -/
def resOut : Except CodecError (List Byte) → List Byte
  | .ok out => out
  | .error _ => []

/-- `ERRPOS` after a result. -/
def resPos : Except CodecError (List Byte) → Nat
  | .ok _ => 0
  | .error e => errPos e

/-- `ERRVAL` after a result. -/
def resVal : Except CodecError (List Byte) → Byte
  | .ok _ => 0x00#8
  | .error e => errVal e

/-- What ending a command writes, in full (30_encoding.md R58, 60_exceptions.md R136). -/
theorem finish_eq (r : Except CodecError (List Byte)) (s : State) :
    finish r s =
      { s with
        status := resStatus r, leno := (resOut r).length, errpos := resPos r, errval := resVal r,
        dst := memOf 0 (resOut r) } := by
  cases r with
  | ok out => exact complete_eq out s
  | error e => rfl

/-- A state reached by ending a command with some result, after at most some draws. -/
def EndsWith (s t : State) : Prop := ∃ d r, t = finish r { s with draws := d }

theorem EndsWith.of_finish {s u : State} (r : Except CodecError (List Byte)) (h : OnlyDraws s u) :
    EndsWith s (finish r u) := by
  obtain ⟨d, rfl⟩ := h
  exact ⟨d, r, rfl⟩

/-- `exec` always answers a next state, and that state is the end of the command with some result. -/
theorem runCommand_ends {usesB : Bool} {body : State → State} (hb : ∀ s, EndsWith s (body s)) (s : State) :
    ∃ t, runCommand usesB body s = .next t ∧ EndsWith s t := by
  refine ⟨_, rfl, ?_⟩
  split
  · exact hb s
  · exact EndsWith.of_finish (.error .illegalCmd) (OnlyDraws.rfl_of s)

theorem bodyHexenc_ends (s : State) : EndsWith s (bodyHexenc s) :=
  EndsWith.of_finish (.ok _) (readOperand_spec .a s).1

theorem bodyB64enc_ends (s : State) : EndsWith s (bodyB64enc s) :=
  EndsWith.of_finish (.ok _) (readOperand_spec .a s).1

theorem bodyHexdec_ends (s : State) : EndsWith s (bodyHexdec s) := by
  unfold bodyHexdec
  split
  · exact EndsWith.of_finish (.error .oddLength) (OnlyDraws.rfl_of s)
  · exact EndsWith.of_finish _ (readOperand_spec .a s).1

theorem readPadOne_spec (n : Nat) (s : State) : OnlyDraws s (readPadOne n s).2 ∧ (readPadOne n s).1 ≤ 1 := by
  refine ⟨(readSrc_spec .a (n - 1) s).1, ?_⟩
  simp only [readPadOne]
  split <;> omega

/-- The padding test changes at most the draws and answers at most 2, and never more than the length. -/
theorem readPadCount_spec (n : Nat) (s : State) :
    OnlyDraws s (readPadCount n s).2 ∧ (readPadCount n s).1 ≤ 2 ∧ (readPadCount n s).1 ≤ n := by
  have h1 := (readSrc_spec .a (n - 1) s).1
  have h2 := (readSrc_spec .a (n - 2) (readSrc .a (n - 1) s).2).1
  unfold readPadCount
  split
  · exact ⟨OnlyDraws.rfl_of s, by simp, by simp⟩
  · split
    · obtain ⟨h, hle⟩ := readPadOne_spec n s
      exact ⟨h, by omega, by omega⟩
    · dsimp only
      split
      · split
        · exact ⟨h1.trans_of h2, by simp, by simp; omega⟩
        · obtain ⟨h, hle⟩ := readPadOne_spec n (readSrc .a (n - 2) (readSrc .a (n - 1) s).2).2
          exact ⟨(h1.trans_of h2).trans_of h, by omega, by omega⟩
      · obtain ⟨h, hle⟩ := readPadOne_spec n (readSrc .a (n - 1) s).2
        exact ⟨h1.trans_of h, by omega, by omega⟩

theorem bodyB64dec_ends (s : State) : EndsWith s (bodyB64dec s) := by
  unfold bodyB64dec
  split
  · exact EndsWith.of_finish _ ((readPadCount_spec s.lena s).1.trans_of
      (readRange_spec .a 0 _ (readPadCount s.lena s).2).1)
  · exact EndsWith.of_finish (.error .badLength) (OnlyDraws.rfl_of s)

theorem bodyXor_ends (s : State) : EndsWith s (bodyXor s) := by
  unfold bodyXor
  split
  · exact EndsWith.of_finish _ ((readOperand_spec .a s).1.trans_of (readOperand_spec .b (readOperand .a s).2).1)
  · exact EndsWith.of_finish (.error (.lengthMismatch s.lena s.lenb)) (OnlyDraws.rfl_of s)

/-- Everything a command can do: it completes, ending with some result after at most some draws. -/
theorem exec_ends (i : Instr) (s : State) : ∃ t, exec i s = .next t ∧ EndsWith s t := by
  cases i with
  | hexdec => exact runCommand_ends bodyHexdec_ends s
  | hexenc => exact runCommand_ends bodyHexenc_ends s
  | b64enc => exact runCommand_ends bodyB64enc_ends s
  | b64dec => exact runCommand_ends bodyB64dec_ends s
  | xor => exact runCommand_ends bodyXor_ends s

/-! ## The result of a command as a function of its operands -/

/-- `readPadOne` on the buffer and the draws alone. -/
def drawPadOne (m : Memory) (n d : Nat) : Nat × Nat :=
  (if (drawByte m (n - 1) d).1 = padChar then 1 else 0, (drawByte m (n - 1) d).2)

/-- `readPadCount` on the buffer and the draws alone. -/
def drawPadCount (m : Memory) (n d : Nat) : Nat × Nat :=
  if n = 0 then (0, d)
  else if n = 1 then drawPadOne m n d
  else if (drawByte m (n - 1) d).1 = padChar then
    if (drawByte m (n - 2) (drawByte m (n - 1) d).2).1 = padChar then
      (2, (drawByte m (n - 2) (drawByte m (n - 1) d).2).2)
    else drawPadOne m n (drawByte m (n - 2) (drawByte m (n - 1) d).2).2
  else drawPadOne m n (drawByte m (n - 1) d).2

theorem readPadOne_eq (n : Nat) (s : State) :
    readPadOne n s = ((drawPadOne s.srca n s.draws).1, { s with draws := (drawPadOne s.srca n s.draws).2 }) := by
  simp [readPadOne, drawPadOne, readSrc_eq]

theorem readPadCount_eq (n : Nat) (s : State) :
    readPadCount n s =
      ((drawPadCount s.srca n s.draws).1, { s with draws := (drawPadCount s.srca n s.draws).2 }) := by
  unfold readPadCount drawPadCount
  simp only [readSrc_eq, readPadOne_eq, State.src_a]
  split
  · rfl
  · split
    · rfl
    · split
      · split
        · rfl
        · rfl
      · rfl

/-- What a command ends with, and how many free bytes have been drawn then, from the capacity, the lengths, the source buffers and the
draws alone (00_scope.md R3). -/
def resultOf (i : Instr) (capIn lena lenb : Nat) (a b : Memory) (d : Nat) : Except CodecError (List Byte) × Nat :=
  if lena ≤ capIn ∧ (i = .xor → lenb ≤ capIn) then
    match i with
    | .hexenc => (.ok (hexEncode (drawRange a 0 lena d).1), (drawRange a 0 lena d).2)
    | .hexdec =>
      if lena % 2 = 1 then (.error .oddLength, d)
      else (hexDecode (drawRange a 0 lena d).1, (drawRange a 0 lena d).2)
    | .b64enc => (.ok (b64Encode (drawRange a 0 lena d).1), (drawRange a 0 lena d).2)
    | .b64dec =>
      if lena % 4 = 0 then
        let p := drawPadCount a lena d
        let r := drawRange a 0 (lena - p.1) p.2
        (b64DecodeStripped p.1 r.1, r.2)
      else (.error .badLength, d)
    | .xor =>
      if lena = lenb then
        let x := drawRange a 0 lena d
        let y := drawRange b 0 lenb x.2
        (xorCombine x.1 y.1, y.2)
      else (.error (.lengthMismatch lena lenb), d)
  else (.error .illegalCmd, d)

/-- The result of a command in a state. -/
def resultIn (i : Instr) (s : State) : Except CodecError (List Byte) × Nat :=
  resultOf i s.capIn s.lena s.lenb s.srca s.srcb s.draws

/-- Everything a command does: it ends with its result, which its operands alone determine, and counts the free bytes it drew. -/
theorem exec_eq (i : Instr) (s : State) :
    exec i s = .next (finish (resultIn i s).1 { s with draws := (resultIn i s).2 }) := by
  have hb : ∀ d : Nat, ({ s with draws := d } : State).len .b = s.lenb := fun _ => rfl
  have hs : ∀ d : Nat, ({ s with draws := d } : State).src .b = s.srcb := fun _ => rfl
  cases i <;>
    simp only [exec, execHexdec, execHexenc, execB64enc, execB64dec, execXor, runCommand, admitted, resultIn, resultOf,
      bodyHexdec, bodyHexenc, bodyB64enc, bodyB64dec, bodyXor, readOperand_eq, readPadCount_eq, readRange_eq, State.src_a,
      State.len_a, hb, hs, Bool.not_false, Bool.not_true, Bool.true_or, Bool.false_or, Bool.and_true,
      Bool.and_eq_true, decide_eq_true_eq, reduceCtorEq, false_implies, true_implies, and_true] <;>
    split <;> first | rfl | (split <;> rfl)

/-- When `exec` answers `t`, field by field. -/
theorem exec_next_iff (i : Instr) (s t : State) :
    exec i s = .next t ↔ t =
      { s with
        status := resStatus (resultIn i s).1, leno := (resOut (resultIn i s).1).length,
        errpos := resPos (resultIn i s).1, errval := resVal (resultIn i s).1,
        dst := memOf 0 (resOut (resultIn i s).1), draws := (resultIn i s).2 } := by
  rw [exec_eq, finish_eq]
  constructor
  · intro h
    injection h with h
    exact h.symm
  · intro h
    rw [h]

/-- On written bytes the padding test is `PadCount` of the operand and draws nothing (42_base64_decode.md R109). -/
theorem drawPadCount_written {m : Memory} {cs : List Byte} (d : Nat) (h : Holds m cs) :
    drawPadCount m cs.length d = (padCount cs, d) := by
  rcases List.eq_nil_or_concat cs with rfl | ⟨ys, y, rfl⟩
  · rfl
  · rcases List.eq_nil_or_concat ys with rfl | ⟨zs, z, rfl⟩
    · have hy : memRead m 0 = some y := by simpa using h 0 (by simp)
      simp [drawPadCount, drawPadOne, drawByte, hy, padCount]
    · have hy : memRead m (zs.length + 1) = some y := by simpa using h (zs.length + 1) (by simp)
      have hz : memRead m zs.length = some z := by simpa using h zs.length (by simp)
      by_cases h1 : y = padChar
      · by_cases h2 : z = padChar <;> simp [drawPadCount, drawPadOne, drawByte, padCount, hy, hz, h1, h2]
      · simp [drawPadCount, drawPadOne, drawByte, padCount, hy, h1]

end Sys2Proof.Machine
end

