-- ==== Sys2Proof/Laws/HostPort.lean ====
section
/-! SUPPORT. The host's side of the port: what a step is, and everything one host action can do, said once. -/

namespace Sys2Proof.Machine

/-- With nothing pending a step changes nothing (60_exceptions.md R148). -/
theorem step_idle {s : State} (h : s.pending = []) : step s = .next s := by
  simp [step, takeAction, h]

/-- With an action pending a step is that action, taken from the list (20_memory.md R43). -/
theorem step_cons {s : State} {a : HostAction} {rest : List HostAction} (h : s.pending = a :: rest) :
    step s = act a (s.setPending rest) := by
  simp [step, takeAction, h]

/-- Returning a byte changes the replies, and the draws only where the byte is unspecified. -/
theorem replyByte_eq (v : Option Byte) (s : State) :
    replyByte v s =
      { s with
        replies := s.replies ++ [.byte (v.getD (Config.freeByte s.draws))],
        draws := if v = none then s.draws + 1 else s.draws } := by
  cases v <;> rfl

/-- A write to `CMD`: the word is stored, and the command ends with its result or the reserved word with `IllegalCmd`. -/
theorem writeCmd_eq (w : Byte) (s : State) :
    writeCmd w s = .next (match decode w with
      | .ok i => finish (resultIn i s).1 { s with cmd := w, draws := (resultIn i s).2 }
      | .error _ => raise .illegalCmd { s with cmd := w }) := by
  unfold writeCmd
  cases decode w with
  | ok i => exact exec_eq i (s.setCmd w)
  | error e => rfl

/-- A host action that reads. -/
def HostAction.isRead : HostAction → Bool
  | .rda _ => true
  | .rdb _ => true
  | .rdo _ => true
  | .rdreg _ => true
  | _ => false

/-- Everything an action can do when the block takes it: reset, one byte of one source buffer, one reply, a command's end, one length
register, or nothing. -/
theorem act_cases {a : HostAction} {s t : State} (h : act a s = .next t) :
    (a = .reset ∧ t = resetBlock s) ∨
    (∃ buf i v, a = bufWrite buf i v ∧ i < s.capIn ∧ t = s.setSrc (memWrite (s.src buf) i v) buf) ∨
    (a.isRead = true ∧ ∃ r d, t = { s with replies := s.replies ++ [r], draws := d }) ∨
    (∃ v, a = .wrreg 0 v ∧ v < 256 ∧
      ((∃ i, decode (BitVec.ofNat 8 v) = .ok i ∧
          t = finish (resultIn i s).1 { s with cmd := BitVec.ofNat 8 v, draws := (resultIn i s).2 }) ∨
        (∃ e, decode (BitVec.ofNat 8 v) = .error e ∧ t = raise .illegalCmd { s with cmd := BitVec.ofNat 8 v }))) ∨
    (∃ buf v, a = .wrreg (lenReg buf) v ∧ v < 2 ^ Config.lenW s.capIn ∧ t = s.setLen v buf) ∨
    (∃ r v, a = .wrreg r v ∧ (r = 1 ∨ r = 4 ∨ r = 5 ∨ r = 6) ∧ t = s) := by
  cases a with
  | reset => exact .inl ⟨rfl, by cases h; rfl⟩
  | wra i v =>
    simp only [act, writeBuf] at h
    split at h
    · rename_i hi
      exact .inr (.inl ⟨.a, i, v, rfl, hi, by cases h; rfl⟩)
    · cases h
  | wrb i v =>
    simp only [act, writeBuf] at h
    split at h
    · rename_i hi
      exact .inr (.inl ⟨.b, i, v, rfl, hi, by cases h; rfl⟩)
    · cases h
  | rda i =>
    simp only [act, readBuf, replyByte_eq] at h
    split at h
    · exact .inr (.inr (.inl ⟨rfl, _, _, by injection h with h; exact h.symm⟩))
    · cases h
  | rdb i =>
    simp only [act, readBuf, replyByte_eq] at h
    split at h
    · exact .inr (.inr (.inl ⟨rfl, _, _, by injection h with h; exact h.symm⟩))
    · cases h
  | rdo i =>
    simp only [act, readOut, replyByte_eq] at h
    split at h
    · exact .inr (.inr (.inl ⟨rfl, _, _, by injection h with h; exact h.symm⟩))
    · cases h
  | wrreg r v =>
    match r with
    | 0 =>
      by_cases hv : v < 256
      · simp only [act, actWrreg, regPort, Nat.reducePow, hv, if_true, writeCmd_eq] at h
        injection h with h
        refine .inr (.inr (.inr (.inl ⟨v, rfl, hv, ?_⟩)))
        cases hd : decode (BitVec.ofNat 8 v) with
        | ok i => exact .inl ⟨i, rfl, by rw [hd] at h; exact h.symm⟩
        | error e => exact .inr ⟨e, rfl, by rw [hd] at h; exact h.symm⟩
      · simp [act, actWrreg, regPort, hv] at h
    | 2 =>
      simp only [act, actWrreg, regPort] at h
      split at h
      · rename_i hv
        exact .inr (.inr (.inr (.inr (.inl ⟨.a, v, rfl, hv, by cases h; rfl⟩))))
      · cases h
    | 3 =>
      simp only [act, actWrreg, regPort] at h
      split at h
      · rename_i hv
        exact .inr (.inr (.inr (.inr (.inl ⟨.b, v, rfl, hv, by cases h; rfl⟩))))
      · cases h
    | 1 | 4 | 5 | 6 =>
      simp only [act, actWrreg, regPort] at h
      split at h
      · exact .inr (.inr (.inr (.inr (.inr ⟨_, v, rfl, by simp, by cases h; rfl⟩))))
      · cases h
    | n + 7 => cases h
  | rdreg r =>
    simp only [act, actRdreg] at h
    split at h
    · cases h
    · exact .inr (.inr (.inl ⟨rfl, _, s.draws, by cases h; rfl⟩))

end Sys2Proof.Machine
end

