-- ==== Sys2Proof/Laws/PerInstr.lean ====
section
/-! SUPPORT. Per-command facts about the command as syntax: it is well formed, its word is the table's and decodes to it. -/

namespace Sys2Proof.Laws.Encoding

/-- The command is well formed, its word has the five `rsv` bits zero, and the word decodes to it (30_encoding.md R50, R51). -/
def Statement (i : Instr) : Prop :=
  i.wf = true ∧ rsvField (encode i) = 0#5 ∧ decode (encode i) = .ok i

theorem hexdec : Statement .hexdec := ⟨rfl, rfl, rfl⟩
theorem hexenc : Statement .hexenc := ⟨rfl, rfl, rfl⟩
theorem b64enc : Statement .b64enc := ⟨rfl, rfl, rfl⟩
theorem b64dec : Statement .b64dec := ⟨rfl, rfl, rfl⟩
theorem xor : Statement .xor := ⟨rfl, rfl, rfl⟩

end Sys2Proof.Laws.Encoding
end

