-- ==== Sys2Proof/Tests/Slice0.lean ====
section
/-! SUPPORT. Tests: well-formedness, command words written out bit by bit, vectors of 95_test_vectors.md, and for every statement with
hypotheses a witness that they can be met together. -/

namespace Sys2Proof.Tests

open Sys2Proof.Machine

/-- A block of capacity 8 with operands `a` and `b` written and their lengths set. -/
def blockOf (a b : List Byte) : State :=
  { State.resetWith 8 with srca := memOf 0 a, lena := a.length, srcb := memOf 0 b, lenb := b.length }

/-- What a command leaves for the host to read, the output as a list. -/
structure Seen where
  status : Byte
  leno : Nat
  errpos : Nat
  errval : Byte
  out : List Byte
  deriving DecidableEq, Repr

/-- What a next state shows. -/
def outcomeOf : Host.Outcome State Fault Refusal → Option Seen
  | .next t => some ⟨t.status, t.leno, t.errpos, t.errval, t.dst.map Prod.snd⟩
  | _ => none

/-- The last reply of a next state. -/
def lastReply : Host.Outcome State Fault Refusal → Option Reply
  | .next t => t.replies.getLast?
  | _ => none

/-! ## Well-formedness: an ill-formed action for each check -/

theorem test_wf_wra : HostAction.wf 8 (.wra 7 0#8) = true ∧ HostAction.wf 8 (.wra 8 0#8) = false := by decide
theorem test_wf_wrb : HostAction.wf 8 (.wrb 7 0#8) = true ∧ HostAction.wf 8 (.wrb 8 0#8) = false := by decide
theorem test_wf_rda : HostAction.wf 8 (.rda 7) = true ∧ HostAction.wf 8 (.rda 8) = false := by decide
theorem test_wf_rdb : HostAction.wf 8 (.rdb 7) = true ∧ HostAction.wf 8 (.rdb 8) = false := by decide
theorem test_wf_rdo : HostAction.wf 8 (.rdo 15) = true ∧ HostAction.wf 8 (.rdo 16) = false := by decide
theorem test_wf_wrreg_byte : HostAction.wf 8 (.wrreg 0 255) = true ∧ HostAction.wf 8 (.wrreg 0 256) = false := by decide
/-- 10_state.md R9, R17: with `CAP_IN = 8` the lengths have 5 bits. -/
theorem test_wf_wrreg_len : HostAction.wf 8 (.wrreg 2 31) = true ∧ HostAction.wf 8 (.wrreg 2 32) = false := by
  unfold HostAction.wf regValues Config.lenW
  decide
theorem test_wf_wrreg_none : HostAction.wf 8 (.wrreg 7 0) = false := by decide
theorem test_wf_rdreg : HostAction.wf 8 (.rdreg 6) = true ∧ HostAction.wf 8 (.rdreg 7) = false := by decide

/-! ## Command words, bit by bit (30_encoding.md R50, R51, R53) -/

theorem test_word_hexdec : decode (0#1 ++ 0#1 ++ 0#1 ++ 0#1 ++ 0#1 ++ 0#1 ++ 0#1 ++ 1#1) = .ok .hexdec := rfl
theorem test_word_hexenc : decode (0#1 ++ 0#1 ++ 0#1 ++ 0#1 ++ 0#1 ++ 0#1 ++ 1#1 ++ 0#1) = .ok .hexenc := rfl
theorem test_word_b64enc : decode (0#1 ++ 0#1 ++ 0#1 ++ 0#1 ++ 0#1 ++ 0#1 ++ 1#1 ++ 1#1) = .ok .b64enc := rfl
theorem test_word_b64dec : decode (0#1 ++ 0#1 ++ 0#1 ++ 0#1 ++ 0#1 ++ 1#1 ++ 0#1 ++ 0#1) = .ok .b64dec := rfl
theorem test_word_xor : decode (0#1 ++ 0#1 ++ 0#1 ++ 0#1 ++ 0#1 ++ 1#1 ++ 0#1 ++ 1#1) = .ok .xor := rfl
theorem test_word_reserved_op : decode (0#1 ++ 0#1 ++ 0#1 ++ 0#1 ++ 0#1 ++ 1#1 ++ 1#1 ++ 0#1) = .error .reservedOp := rfl
/-- 95_test_vectors.md 4.6: 0x81 is not `HEXDEC`. -/
theorem test_word_reserved_bits : decode (1#1 ++ 0#1 ++ 0#1 ++ 0#1 ++ 0#1 ++ 0#1 ++ 0#1 ++ 1#1) = .error .reservedBits := rfl
theorem test_table_word : decodeTableWord 8 0x05 = some .xor ∧ decodeTableWord 8 0x0D = none ∧ decodeTableWord 16 0x05 = none :=
  ⟨rfl, rfl, rfl⟩

/-! ## One command each, from 95_test_vectors.md part 4 -/

/-- 4.1: `[0x0f, 0xf0]` to `"0ff0"`. -/
theorem test_hexenc : outcomeOf (exec .hexenc (blockOf [0x0F#8, 0xF0#8] [])) =
    some ⟨0x01#8, 4, 0, 0x00#8, [0x30#8, 0x66#8, 0x66#8, 0x30#8]⟩ := by decide
/-- 4.2: `"7a7A"` to `[0x7a, 0x7a]`. -/
theorem test_hexdec : outcomeOf (exec .hexdec (blockOf [0x37#8, 0x61#8, 0x37#8, 0x41#8] [])) =
    some ⟨0x01#8, 2, 0, 0x00#8, [0x7A#8, 0x7A#8]⟩ := by decide
/-- 4.2: `"12 4"` reports index 2 of the whole input. -/
theorem test_hexdec_invalid : outcomeOf (exec .hexdec (blockOf [0x31#8, 0x32#8, 0x20#8, 0x34#8] [])) =
    some ⟨0x05#8, 0, 2, 0x20#8, []⟩ := by decide
/-- 4.3: `[0x14, 0xfb, 0x9c, 0x03, 0xd9]` to `"FPucA9k="`. -/
theorem test_b64enc : outcomeOf (exec .b64enc (blockOf [0x14#8, 0xFB#8, 0x9C#8, 0x03#8, 0xD9#8] [])) =
    some ⟨0x01#8, 8, 0, 0x00#8, [0x46#8, 0x50#8, 0x75#8, 0x63#8, 0x41#8, 0x39#8, 0x6B#8, 0x3D#8]⟩ := by decide
/-- 4.3: `[0xff]` to `"/w=="`. -/
theorem test_b64enc_one : outcomeOf (exec .b64enc (blockOf [0xFF#8] [])) =
    some ⟨0x01#8, 4, 0, 0x00#8, [0x2F#8, 0x77#8, 0x3D#8, 0x3D#8]⟩ := by decide
/-- 4.4: `"ab=="` to `[0x69]`. -/
theorem test_b64dec : outcomeOf (exec .b64dec (blockOf [0x61#8, 0x62#8, 0x3D#8, 0x3D#8] [])) =
    some ⟨0x01#8, 1, 0, 0x00#8, [0x69#8]⟩ := by decide
/-- 4.4: `"A==="` reports the stray `'='` at index 1. -/
theorem test_b64dec_stray_pad : outcomeOf (exec .b64dec (blockOf [0x41#8, 0x3D#8, 0x3D#8, 0x3D#8] [])) =
    some ⟨0x05#8, 0, 1, 0x3D#8, []⟩ := by decide
/-- 4.5: `[0x12, 0x34, 0x56]` with `[0xff, 0x00, 0x0f]`. -/
theorem test_xor : outcomeOf (exec .xor (blockOf [0x12#8, 0x34#8, 0x56#8] [0xFF#8, 0x00#8, 0x0F#8])) =
    some ⟨0x01#8, 3, 0, 0x00#8, [0xED#8, 0x34#8, 0x59#8]⟩ := by decide
/-- S5: `[1, 2]` with `[1]`. -/
theorem test_xor_mismatch : outcomeOf (exec .xor (blockOf [0x01#8, 0x02#8] [0x01#8])) =
    some ⟨0x07#8, 0, 0, 0x00#8, []⟩ := by decide

/-! ## The host's side (95_test_vectors.md 4.6, 4.7) -/

/-- A word presented after reset is the first thing the block runs. -/
theorem test_fetch : outcomeOf (step (State.reset.withFetchWord 8 0x02)) = some ⟨0x01#8, 0, 0, 0x00#8, []⟩ := by decide
/-- 4.6: `0x81` is reserved. -/
theorem test_reserved : outcomeOf (step (State.reset.withFetchWord 8 0x81)) = some ⟨0x09#8, 0, 0, 0x00#8, []⟩ := by decide
/-- An output byte is read back after `HEXENC`. -/
theorem test_rdo : lastReply (runScript [.wrreg 0 2, .rdo 1] (blockOf [0x4D#8] [])) = some (.byte 0x64#8) := by decide
/-- The lengths of a `LengthMismatch` are read back from `LENA` and `LENB`. -/
theorem test_rdreg : lastReply (runScript [.wrreg 0 5, .rdreg 3] (blockOf [0x01#8, 0x02#8] [0x01#8])) = some (.len 1) := by decide

/-! ## Witnesses: for every statement with hypotheses, an input that meets them together -/

theorem holds_blockOf_a (a b : List Byte) : Holds (blockOf a b).srca a := by
  intro i _
  simp [blockOf]

theorem holds_blockOf_b (a b : List Byte) : Holds (blockOf a b).srcb b := by
  intro i _
  simp [blockOf]

theorem operandWritten_a (a b : List Byte) : OperandWritten .a (blockOf a b) := by
  intro i hi
  simpa [blockOf] using hi

theorem operandWritten_b (a b : List Byte) : OperandWritten .b (blockOf a b) := by
  intro i hi
  simpa [blockOf] using hi

theorem operandsWritten_blockOf (i : Instr) (a b : List Byte) : OperandsWritten i (blockOf a b) :=
  ⟨operandWritten_a a b, fun _ => operandWritten_b a b⟩

/-- A block with one action pending. -/
def pendingOf (a : HostAction) (s : State) : State := { s with pending := [a] }

theorem witness_OpcodeMapDecodesFiveWords :
    (0x05#8 &&& 0xF8#8 = 0#8 ∧ 1 ≤ (0x05#8 &&& 0x07#8).toNat ∧ (0x05#8 &&& 0x07#8).toNat ≤ 5) ∧
    ¬ (0x06#8 &&& 0xF8#8 = 0#8 ∧ 1 ≤ (0x06#8 &&& 0x07#8).toNat ∧ (0x06#8 &&& 0x07#8).toNat ≤ 5) := by decide

theorem witness_DecodeEncodeRoundTrip : Instr.b64dec.wf = true ∧ decode 0x05#8 = .ok .xor := ⟨rfl, rfl⟩

theorem witness_StepRunsDecodedCommand :
    (pendingOf (.wrreg 0 4) State.reset).pending = .wrreg 0 4 :: [] ∧ 4 < 256 ∧ decode (BitVec.ofNat 8 4) = .ok .b64dec ∧
    Instr.b64dec.wf = true := ⟨rfl, by decide, rfl, rfl⟩

theorem witness_ReservedWordEndsIllegalCmd :
    ((pendingOf (.wrreg 0 (0x08#8).toNat) State.reset).pending = [.wrreg 0 (0x08#8).toNat] ∧ 0x08#8 &&& 0xF8#8 ≠ 0#8) ∧
    ((pendingOf (.wrreg 0 (0xFF#8).toNat) State.reset).pending = [.wrreg 0 (0xFF#8).toNat] ∧ 0xFF#8 &&& 0xF8#8 ≠ 0#8) ∧
    ((pendingOf (.wrreg 0 (0x00#8).toNat) State.reset).pending = [.wrreg 0 (0x00#8).toNat] ∧ 0x00#8 = 0x00#8) ∧
    ((pendingOf (.wrreg 0 (0x06#8).toNat) State.reset).pending = [.wrreg 0 (0x06#8).toNat] ∧ 0x06#8 = 0x06#8) ∧
    ((pendingOf (.wrreg 0 (0x07#8).toNat) State.reset).pending = [.wrreg 0 (0x07#8).toNat] ∧ 0x07#8 = 0x07#8) := by
  decide

theorem witness_OversizeLengthEndsIllegalCmd :
    (∃ s : State, s.capIn < s.lena ∧ s.lena = s.capIn + 1) ∧ (∃ s : State, Instr.xor = .xor ∧ s.capIn < s.lenb ∧ s.lena = 0) ∧
    ∃ s t : State, Instr.hexenc ≠ .xor ∧ exec .hexenc s = .next t :=
  ⟨⟨{ State.reset with lena := 129 }, by decide, rfl⟩, ⟨{ State.reset with lenb := 129 }, rfl, by decide, rfl⟩,
    ⟨State.reset, _, by decide, rfl⟩⟩

theorem witness_HexAlphabetTables :
    ((9#4).toNat ≤ 9 ∧ hexChar 9#4 = 0x39#8) ∧ (10 ≤ (10#4).toNat ∧ hexChar 10#4 = 0x61#8) ∧ hexChar 15#4 = hexChar 15#4 ∧
    hexVal 0x2F#8 = none ∧ hexVal 0x30#8 = some 0#4 ∧ hexVal 0x39#8 = some 9#4 ∧ hexVal 0x3A#8 = none ∧
    hexVal 0x40#8 = none ∧ hexVal 0x41#8 = some 10#4 ∧ hexVal 0x46#8 = some 15#4 ∧ hexVal 0x47#8 = none ∧
    hexVal 0x60#8 = none ∧ hexVal 0x61#8 = some 10#4 ∧ hexVal 0x66#8 = some 15#4 ∧ hexVal 0x67#8 = none := by decide

theorem witness_B64AlphabetTables :
    b64Char 25#6 = 0x5A#8 ∧ b64Char 26#6 = 0x61#8 ∧ b64Char 51#6 = 0x7A#8 ∧ b64Char 52#6 = 0x30#8 ∧ b64Char 61#6 = 0x39#8 ∧
    b64Char 62#6 = 0x2B#8 ∧ b64Char 63#6 = 0x2F#8 ∧ b64Val 0x40#8 = none ∧ b64Val 0x41#8 = some 0#6 ∧
    b64Val 0x5A#8 = some 25#6 ∧ b64Val 0x5B#8 = none ∧ b64Val 0x60#8 = none ∧ b64Val 0x61#8 = some 26#6 ∧
    b64Val 0x7A#8 = some 51#6 ∧ b64Val 0x7B#8 = none ∧ b64Val 0x30#8 = some 52#6 ∧ b64Val 0x39#8 = some 61#6 ∧
    b64Val 0x3A#8 = none ∧ b64Val 0x2B#8 = some 62#6 ∧ b64Val 0x2F#8 = some 63#6 ∧ b64Val 0x3D#8 = none := by decide

theorem witness_XorByteLaws :
    (0 < 8 ∧ (xorByte 0x1C#8 0x68#8).getLsbD 0 = false) ∧ (7 < 8 ∧ (xorByte 0xAA#8 0x55#8).getLsbD 7 = true) := by decide

theorem witness_HexEncodeText :
    [0x4D#8, 0xA5#8][0]? = some 0x4D#8 ∧ [0x4D#8, 0xA5#8][1]? = some 0xA5#8 ∧ 0x61#8 ∈ hexEncode [0x4D#8, 0xA5#8] := by decide

theorem witness_HexRoundTrip : hexDecode [0x46#8, 0x66#8] = .ok [0xFF#8] := rfl

theorem witness_HexDecodeFollowsWindows :
    [0x7A#8].length % 2 = 1 ∧
    ([0x30#8, 0x67#8].length % 2 = 0 ∧ [0x30#8, 0x67#8][1]? = some 0x67#8 ∧ hexVal 0x67#8 = none ∧
      ∀ q, q < 1 → ∀ d, [0x30#8, 0x67#8][q]? = some d → hexVal d ≠ none) ∧
    ([0x46#8, 0x66#8].length % 2 = 0 ∧ (∀ c ∈ [0x46#8, 0x66#8], hexVal c ≠ none) ∧
      [0x46#8, 0x66#8][2 * 0]? = some 0x46#8 ∧ [0x46#8, 0x66#8][2 * 0 + 1]? = some 0x66#8 ∧
      hexVal 0x46#8 = some 15#4 ∧ hexVal 0x66#8 = some 15#4) := by
  refine ⟨by decide, ⟨by decide, by decide, by decide, ?_⟩, by decide⟩
  intro q hq d hd
  obtain rfl : q = 0 := by omega
  cases hd
  decide

theorem witness_B64EncodeGroupsAndPadding :
    3 * 0 < [0x4D#8].length ∧ 3 * 1 < [0x4D#8, 0x61#8, 0x6E#8, 0x79#8].length ∧
    (b64Encode [0x4D#8])[3]? = some 0x3D#8 ∧ (b64Encode [0x4D#8])[0]? = some 0x54#8 := by decide

theorem witness_PaddingControlBothWays :
    padCount [] = 0 ∧ padCount [0x3D#8] = 1 ∧ padCount [0x41#8, 0x3D#8] = 1 ∧ padCount [0x3D#8, 0x3D#8] = 2 ∧
    padCount [0x3D#8, 0x41#8, 0x41#8, 0x41#8] = 0 := by decide

theorem witness_B64DecodeFollowsGroups :
    [0x54#8, 0x51#8].length % 4 ≠ 0 ∧
    ([0x41#8, 0x3D#8, 0x3D#8, 0x3D#8].length % 4 = 0 ∧
      1 < [0x41#8, 0x3D#8, 0x3D#8, 0x3D#8].length - padCount [0x41#8, 0x3D#8, 0x3D#8, 0x3D#8] ∧
      [0x41#8, 0x3D#8, 0x3D#8, 0x3D#8][1]? = some 0x3D#8 ∧ b64Val 0x3D#8 = none ∧
      ∀ q, q < 1 → ∀ d, [0x41#8, 0x3D#8, 0x3D#8, 0x3D#8][q]? = some d → b64Val d ≠ none) ∧
    ([0x54#8, 0x51#8, 0x3D#8, 0x3D#8].length % 4 = 0 ∧
      ∃ v : Nat → Sextet,
        (∀ q d, q < [0x54#8, 0x51#8, 0x3D#8, 0x3D#8].length - padCount [0x54#8, 0x51#8, 0x3D#8, 0x3D#8] →
          [0x54#8, 0x51#8, 0x3D#8, 0x3D#8][q]? = some d → b64Val d = some (v q)) ∧
        (∀ q, [0x54#8, 0x51#8, 0x3D#8, 0x3D#8].length - padCount [0x54#8, 0x51#8, 0x3D#8, 0x3D#8] ≤ q → v q = 0#6) ∧
        0 < [0x54#8, 0x51#8, 0x3D#8, 0x3D#8].length / 4) := by
  have hp : [0x54#8, 0x51#8, 0x3D#8, 0x3D#8].length - padCount [0x54#8, 0x51#8, 0x3D#8, 0x3D#8] = 2 := by decide
  refine ⟨by decide, ⟨by decide, by decide, by decide, by decide, ?_⟩, by decide,
    fun q => if q = 0 then 19#6 else if q = 1 then 16#6 else 0#6, ?_, ?_, by decide⟩
  · intro q hq d hd
    obtain rfl : q = 0 := by omega
    cases hd
    decide
  · intro q d hq hd
    rw [hp] at hq
    have : q = 0 ∨ q = 1 := by omega
    rcases this with rfl | rfl <;> cases hd <;> decide
  · intro q hq
    rw [hp] at hq
    show (if q = 0 then 19#6 else if q = 1 then 16#6 else 0#6) = 0#6
    rw [if_neg (by omega), if_neg (by omega)]

theorem witness_FillerBitsIgnored :
    (b64Val 0x45#8 = some 4#6 ∧ b64Val 0x46#8 = some 5#6 ∧ (4#6).extractLsb' 2 4 = (5#6).extractLsb' 2 4) ∧
    (b64Val 0x51#8 = some 16#6 ∧ b64Val 0x52#8 = some 17#6 ∧ (16#6).extractLsb' 4 2 = (17#6).extractLsb' 4 2) := by decide

theorem witness_XorCombineBytesAndLaws :
    [0x01#8, 0x02#8].length ≠ [0x01#8].length ∧
    ([0x12#8].length = [0xFF#8].length ∧ [0x12#8][0]? = some 0x12#8 ∧ [0xFF#8][0]? = some 0xFF#8) := by decide

theorem witness_HexencCompletes :
    (blockOf [0x0F#8, 0xF0#8] []).lena ≤ (blockOf [0x0F#8, 0xF0#8] []).capIn ∧
    [0x0F#8, 0xF0#8].length = (blockOf [0x0F#8, 0xF0#8] []).lena ∧ Holds (blockOf [0x0F#8, 0xF0#8] []).srca [0x0F#8, 0xF0#8] :=
  ⟨by decide, rfl, holds_blockOf_a _ _⟩

theorem witness_HexdecCompletes :
    (blockOf [0x46#8, 0x66#8] []).lena ≤ (blockOf [0x46#8, 0x66#8] []).capIn ∧
    [0x46#8, 0x66#8].length = (blockOf [0x46#8, 0x66#8] []).lena ∧ Holds (blockOf [0x46#8, 0x66#8] []).srca [0x46#8, 0x66#8] ∧
    (blockOf [0x46#8, 0x66#8] []).lena % 2 = 0 ∧ ∀ c ∈ [0x46#8, 0x66#8], hexVal c ≠ none :=
  ⟨by decide, rfl, holds_blockOf_a _ _, rfl, by decide⟩

theorem witness_HexdecOddLengthEnds :
    ((blockOf [0x7A#8] []).lena ≤ (blockOf [0x7A#8] []).capIn ∧ (blockOf [0x7A#8] []).lena % 2 = 1) ∧
    ∃ t, exec .hexdec (blockOf [0x7A#8] []) = .next t ∧ t.status = 0x03#8 :=
  ⟨by decide, _, rfl, by decide⟩

theorem witness_HexdecInvalidDigitEnds :
    (blockOf [0x30#8, 0x67#8] []).lena ≤ (blockOf [0x30#8, 0x67#8] []).capIn ∧
    [0x30#8, 0x67#8].length = (blockOf [0x30#8, 0x67#8] []).lena ∧ Holds (blockOf [0x30#8, 0x67#8] []).srca [0x30#8, 0x67#8] ∧
    (blockOf [0x30#8, 0x67#8] []).lena % 2 = 0 ∧ [0x30#8, 0x67#8][1]? = some 0x67#8 ∧ hexVal 0x67#8 = none ∧
    ∀ q d, q < 1 → [0x30#8, 0x67#8][q]? = some d → hexVal d ≠ none :=
  ⟨by decide, rfl, holds_blockOf_a _ _, rfl, rfl, by decide,
    fun q d hq hd => witness_HexDecodeFollowsWindows.2.1.2.2.2 q hq d hd⟩

theorem witness_HexdecBoundaryResults :
    (blockOf [] []).lena = 0 ∧
    ((blockOf [0x61#8] []).lena = 1 ∧ 1 ≤ (blockOf [0x61#8] []).capIn ∧ memRead (blockOf [0x61#8] []).srca 0 = some 0x61#8) ∧
    ((blockOf [0x7A#8, 0x7A#8] []).lena = 2 ∧ 2 ≤ (blockOf [0x7A#8, 0x7A#8] []).capIn ∧
      memRead (blockOf [0x7A#8, 0x7A#8] []).srca 0 = some 0x7A#8 ∧ memRead (blockOf [0x7A#8, 0x7A#8] []).srca 1 = some 0x7A#8) := by
  decide

theorem witness_B64encCompletes :
    (blockOf [0x4D#8, 0x61#8] []).lena ≤ (blockOf [0x4D#8, 0x61#8] []).capIn ∧
    [0x4D#8, 0x61#8].length = (blockOf [0x4D#8, 0x61#8] []).lena ∧ Holds (blockOf [0x4D#8, 0x61#8] []).srca [0x4D#8, 0x61#8] :=
  ⟨by decide, rfl, holds_blockOf_a _ _⟩

theorem witness_B64decCompletes :
    (blockOf [0x54#8, 0x51#8, 0x3D#8, 0x3D#8] []).lena ≤ (blockOf [0x54#8, 0x51#8, 0x3D#8, 0x3D#8] []).capIn ∧
    [0x54#8, 0x51#8, 0x3D#8, 0x3D#8].length = (blockOf [0x54#8, 0x51#8, 0x3D#8, 0x3D#8] []).lena ∧
    Holds (blockOf [0x54#8, 0x51#8, 0x3D#8, 0x3D#8] []).srca [0x54#8, 0x51#8, 0x3D#8, 0x3D#8] ∧
    (blockOf [0x54#8, 0x51#8, 0x3D#8, 0x3D#8] []).lena % 4 = 0 ∧
    ∀ q d, q < [0x54#8, 0x51#8, 0x3D#8, 0x3D#8].length - padCount [0x54#8, 0x51#8, 0x3D#8, 0x3D#8] →
      [0x54#8, 0x51#8, 0x3D#8, 0x3D#8][q]? = some d → b64Val d ≠ none := by
  obtain ⟨_, _, _, v, hv, _, _⟩ := witness_B64DecodeFollowsGroups
  exact ⟨by decide, rfl, holds_blockOf_a _ _, rfl, fun q d hq hd => by rw [hv q d hq hd]; simp⟩

theorem witness_B64decBadLengthEnds :
    ((blockOf [0x54#8, 0x51#8] []).lena ≤ (blockOf [0x54#8, 0x51#8] []).capIn ∧ (blockOf [0x54#8, 0x51#8] []).lena % 4 ≠ 0) ∧
    ∃ t, exec .b64dec (blockOf [0x54#8, 0x51#8] []) = .next t ∧ t.status = 0x0B#8 :=
  ⟨by decide, _, rfl, by decide⟩

theorem witness_B64decInvalidDigitEnds :
    (blockOf [0x41#8, 0x3D#8, 0x3D#8, 0x3D#8] []).lena ≤ (blockOf [0x41#8, 0x3D#8, 0x3D#8, 0x3D#8] []).capIn ∧
    [0x41#8, 0x3D#8, 0x3D#8, 0x3D#8].length = (blockOf [0x41#8, 0x3D#8, 0x3D#8, 0x3D#8] []).lena ∧
    Holds (blockOf [0x41#8, 0x3D#8, 0x3D#8, 0x3D#8] []).srca [0x41#8, 0x3D#8, 0x3D#8, 0x3D#8] ∧
    (blockOf [0x41#8, 0x3D#8, 0x3D#8, 0x3D#8] []).lena % 4 = 0 ∧
    1 < [0x41#8, 0x3D#8, 0x3D#8, 0x3D#8].length - padCount [0x41#8, 0x3D#8, 0x3D#8, 0x3D#8] ∧
    [0x41#8, 0x3D#8, 0x3D#8, 0x3D#8][1]? = some 0x3D#8 ∧ b64Val 0x3D#8 = none ∧
    ∀ q d, q < 1 → [0x41#8, 0x3D#8, 0x3D#8, 0x3D#8][q]? = some d → b64Val d ≠ none := by
  obtain ⟨_, ⟨_, h1, h2, h3, h4⟩, _⟩ := witness_B64DecodeFollowsGroups
  exact ⟨by decide, rfl, holds_blockOf_a _ _, rfl, h1, h2, h3, fun q d hq hd => h4 q hq d hd⟩

theorem witness_XorCompletes :
    (blockOf [0x12#8, 0x34#8] [0xFF#8, 0x00#8]).lena ≤ (blockOf [0x12#8, 0x34#8] [0xFF#8, 0x00#8]).capIn ∧
    (blockOf [0x12#8, 0x34#8] [0xFF#8, 0x00#8]).lenb = (blockOf [0x12#8, 0x34#8] [0xFF#8, 0x00#8]).lena ∧
    [0x12#8, 0x34#8].length = (blockOf [0x12#8, 0x34#8] [0xFF#8, 0x00#8]).lena ∧
    [0xFF#8, 0x00#8].length = (blockOf [0x12#8, 0x34#8] [0xFF#8, 0x00#8]).lenb ∧
    Holds (blockOf [0x12#8, 0x34#8] [0xFF#8, 0x00#8]).srca [0x12#8, 0x34#8] ∧
    Holds (blockOf [0x12#8, 0x34#8] [0xFF#8, 0x00#8]).srcb [0xFF#8, 0x00#8] :=
  ⟨by decide, rfl, rfl, rfl, holds_blockOf_a _ _, holds_blockOf_b _ _⟩

theorem witness_XorLengthMismatchEnds :
    (blockOf [] [0x01#8]).lena ≤ (blockOf [] [0x01#8]).capIn ∧ (blockOf [] [0x01#8]).lenb ≤ (blockOf [] [0x01#8]).capIn ∧
    (blockOf [] [0x01#8]).lena ≠ (blockOf [] [0x01#8]).lenb := by decide

/-- An operand none of whose bytes has been written, of a length every clause admits. -/
theorem witness_CommandsRunOnUnwrittenOperands : ∃ s : State, s.lena ≤ s.capIn ∧ s.lena % 2 = 0 ∧ s.lena % 4 = 0 ∧
    s.lenb = s.lena ∧ s.lena = 4 ∧ memRead s.srca 0 = none :=
  ⟨{ State.reset with lena := 4, lenb := 4 }, by decide, rfl, rfl, rfl, rfl, rfl⟩

theorem witness_CommandFrame : ∃ t, exec .xor (blockOf [0x12#8] [0xFF#8]) = .next t := ⟨_, rfl⟩

theorem witness_ErrorOutcomeLeavesNoOutput :
    (∃ t, exec .xor (blockOf [0x12#8] []) = .next t ∧ t.status ≠ 0x01#8 ∧ t.status ≠ 0x05#8) ∧
    ∃ t, exec .hexenc (blockOf [0x12#8] []) = .next t ∧ t.status ≠ 0x05#8 :=
  ⟨⟨_, rfl, by decide⟩, _, rfl, by decide⟩

theorem witness_InvalidDigitDetail :
    (OperandsWritten .hexdec (blockOf [0x30#8, 0x67#8] []) ∧
      ∃ t, exec .hexdec (blockOf [0x30#8, 0x67#8] []) = .next t ∧ t.status = 0x05#8) ∧
    (OperandsWritten .b64dec (blockOf [0x41#8, 0x3D#8, 0x3D#8, 0x3D#8] []) ∧
      ∃ t, exec .b64dec (blockOf [0x41#8, 0x3D#8, 0x3D#8, 0x3D#8] []) = .next t ∧ t.status = 0x05#8) :=
  ⟨⟨operandsWritten_blockOf _ _ _, _, rfl, by decide⟩, operandsWritten_blockOf _ _ _, _, rfl, by decide⟩

/-- Two blocks that differ in everything a command must not depend on. -/
theorem witness_OutcomeDependsOnOperandsOnly : ∃ s s' : State, s ≠ s' ∧ s.capIn = s'.capIn ∧ s.lena = s'.lena ∧
    OperandsWritten .xor s ∧ (∀ j, j < s.lena → memRead s.srca j = memRead s'.srca j) ∧
    (Instr.xor = .xor → s.lenb = s'.lenb ∧ ∀ j, j < s.lenb → memRead s.srcb j = memRead s'.srcb j) ∧
    (∃ t, exec .xor s = .next t) ∧ ∃ t', exec .xor s' = .next t' := by
  refine ⟨blockOf [0x12#8] [0xFF#8],
    { blockOf [0x12#8, 0x34#8] [0xFF#8] with lena := 1, status := 0x05#8, errpos := 3, dst := [(2, 0x77#8)] },
    by decide, rfl, rfl, operandsWritten_blockOf _ _ _, ?_, fun _ => ⟨rfl, fun _ _ => rfl⟩, ⟨_, rfl⟩, ⟨_, rfl⟩⟩
  intro j hj
  have : j < 1 := hj
  obtain rfl : j = 0 := by omega
  rfl

theorem witness_RepeatedCommandSameOutcome :
    OperandsWritten .b64enc (blockOf [0x4D#8] []) ∧ ∃ t, exec .b64enc (blockOf [0x4D#8] []) = .next t :=
  ⟨operandsWritten_blockOf _ _ _, _, rfl⟩

theorem witness_OutputFitsDestination :
    (2 ≤ 2 ∧ 2 * 2 < 2 ^ 3) ∧ ∃ s t : State, 2 ≤ s.capIn ∧ s.lena = s.capIn ∧ exec .hexenc s = .next t ∧ t.leno = 2 * s.capIn :=
  ⟨by decide, { State.resetWith 2 with lena := 2, srca := memOf 0 [0xFF#8, 0xFF#8] }, _, by decide, rfl, rfl, by decide⟩

theorem witness_HexRoundTripThroughBlock : ∃ t m,
    [0x12#8, 0xAB#8].length = (blockOf [0x12#8, 0xAB#8] []).lena ∧ Holds (blockOf [0x12#8, 0xAB#8] []).srca [0x12#8, 0xAB#8] ∧
    2 * (blockOf [0x12#8, 0xAB#8] []).lena ≤ (blockOf [0x12#8, 0xAB#8] []).capIn ∧
    exec .hexenc (blockOf [0x12#8, 0xAB#8] []) = .next t ∧ ∀ j, j < t.leno → memRead m j = memRead t.dst j :=
  ⟨_, _, rfl, holds_blockOf_a _ _, by decide, rfl, fun _ _ => rfl⟩

theorem witness_B64RoundTripThroughBlock : ∃ t m,
    [0x4D#8].length = (blockOf [0x4D#8] []).lena ∧ Holds (blockOf [0x4D#8] []).srca [0x4D#8] ∧
    (blockOf [0x4D#8] []).lena ≤ (blockOf [0x4D#8] []).capIn ∧
    4 * (((blockOf [0x4D#8] []).lena + 2) / 3) ≤ (blockOf [0x4D#8] []).capIn ∧
    exec .b64enc (blockOf [0x4D#8] []) = .next t ∧ ∀ j, j < t.leno → memRead m j = memRead t.dst j :=
  ⟨_, _, rfl, holds_blockOf_a _ _, by decide, by decide, rfl, fun _ _ => rfl⟩

theorem witness_XorTwiceRestoresFirstOperand : ∃ t m,
    [0x12#8].length = (blockOf [0x12#8] [0xFF#8]).lena ∧ [0xFF#8].length = (blockOf [0x12#8] [0xFF#8]).lenb ∧
    (blockOf [0x12#8] [0xFF#8]).lenb = (blockOf [0x12#8] [0xFF#8]).lena ∧
    Holds (blockOf [0x12#8] [0xFF#8]).srca [0x12#8] ∧ Holds (blockOf [0x12#8] [0xFF#8]).srcb [0xFF#8] ∧
    (blockOf [0x12#8] [0xFF#8]).lena ≤ (blockOf [0x12#8] [0xFF#8]).capIn ∧
    exec .xor (blockOf [0x12#8] [0xFF#8]) = .next t ∧ ∀ j, j < t.leno → memRead m j = memRead t.dst j :=
  ⟨_, _, rfl, rfl, rfl, holds_blockOf_a _ _, holds_blockOf_b _ _, by decide, rfl, fun _ _ => rfl⟩

theorem witness_ResetClearsBlock : (pendingOf .reset (blockOf [0x4D#8] [])).pending = .reset :: [] := rfl

theorem witness_BufferWriteChangesOneByte :
    (7 < (pendingOf (.wra 7 0x4D#8) (blockOf [0x4D#8] [])).capIn ∧
      (pendingOf (.wra 7 0x4D#8) (blockOf [0x4D#8] [])).pending = .wra 7 0x4D#8 :: []) ∧
    (7 < (pendingOf (.wrb 7 0x4D#8) (blockOf [0x4D#8] [])).capIn ∧
      (pendingOf (.wrb 7 0x4D#8) (blockOf [0x4D#8] [])).pending = .wrb 7 0x4D#8 :: []) := by decide

theorem witness_BufferReadReturnsLastWritten :
    (0 < (pendingOf (.rda 0) (blockOf [0x4D#8] [])).capIn ∧ (pendingOf (.rda 0) (blockOf [0x4D#8] [])).pending = .rda 0 :: [] ∧
      memRead (pendingOf (.rda 0) (blockOf [0x4D#8] [])).srca 0 = some 0x4D#8) ∧
    (7 < (pendingOf (.rda 7) (blockOf [0x4D#8] [])).capIn ∧ (pendingOf (.rda 7) (blockOf [0x4D#8] [])).pending = .rda 7 :: [] ∧
      memRead (pendingOf (.rda 7) (blockOf [0x4D#8] [])).srca 7 = none) ∧
    (0 < (pendingOf (.rdb 0) (blockOf [] [0x4D#8])).capIn ∧ (pendingOf (.rdb 0) (blockOf [] [0x4D#8])).pending = .rdb 0 :: [] ∧
      memRead (pendingOf (.rdb 0) (blockOf [] [0x4D#8])).srcb 0 = some 0x4D#8) ∧
    (7 < (pendingOf (.rdb 7) (blockOf [] [0x4D#8])).capIn ∧ (pendingOf (.rdb 7) (blockOf [] [0x4D#8])).pending = .rdb 7 :: [] ∧
      memRead (pendingOf (.rdb 7) (blockOf [] [0x4D#8])).srcb 7 = none) := by decide

/-- A block after `HEXENC` of one byte, with `a` pending: it meets the invariants. -/
def encoded (a : HostAction) : State :=
  { blockOf [0x4D#8] [] with
    cmd := 0x02#8, status := 0x01#8, leno := 2, dst := memOf 0 [0x34#8, 0x64#8], pending := [a] }

theorem encoded_inv (a : HostAction) : Inv (encoded a) := by
  refine ⟨(by decide : 2 ≤ 8), ?_, ?_, (by decide : 2 ≤ 2 * 8), (by decide : 0 < 8),
    (by decide : (0x01#8 : Byte) ∈ [0x00#8, 0x01#8, 0x03#8, 0x05#8, 0x07#8, 0x09#8, 0x0B#8]), ⟨rfl, ?_⟩,
    ⟨rfl, fun _ _ => rfl⟩, rfl, ?_, ?_, ?_⟩
  · show 1 < 2 ^ Config.lenW 8
    unfold Config.lenW
    decide
  · exact Nat.two_pow_pos _
  · intro i hi
    have : 8 ≤ i := hi
    simp only [encoded, blockOf, memOf, memRead]
    rw [if_neg (by omega)]
  · exact fun h => absurd rfl h
  · exact fun _ => ⟨rfl, rfl⟩
  · exact fun h => absurd h (by decide : (0x01#8 : Byte) ≠ 0x00#8)

theorem witness_OutputReadReturnsOutputByte :
    (1 < Config.capOut (encoded (.rdo 1)).capIn ∧ (encoded (.rdo 1)).pending = .rdo 1 :: [] ∧
      (encoded (.rdo 1)).status = 0x01#8 ∧ 1 < (encoded (.rdo 1)).leno ∧ memRead (encoded (.rdo 1)).dst 1 = some 0x64#8) ∧
    (15 < Config.capOut (encoded (.rdo 15)).capIn ∧ (encoded (.rdo 15)).pending = .rdo 15 :: [] ∧
      (encoded (.rdo 15)).leno ≤ 15) ∧
    (0 < Config.capOut (pendingOf (.rdo 0) (blockOf [] [])).capIn ∧
      (pendingOf (.rdo 0) (blockOf [] [])).pending = .rdo 0 :: [] ∧
      (pendingOf (.rdo 0) (blockOf [] [])).status ≠ 0x01#8) := by decide

theorem witness_RegisterWriteStoresLengthOrIsIgnored :
    ((pendingOf (.wrreg 2 31) (blockOf [] [])).pending = .wrreg 2 31 :: [] ∧
      31 < 2 ^ Config.lenW (pendingOf (.wrreg 2 31) (blockOf [] [])).capIn) ∧
    ((pendingOf (.wrreg 3 31) (blockOf [] [])).pending = .wrreg 3 31 :: [] ∧
      31 < 2 ^ Config.lenW (pendingOf (.wrreg 3 31) (blockOf [] [])).capIn) ∧
    ((pendingOf (.wrreg 1 255) (blockOf [] [])).pending = .wrreg 1 255 :: [] ∧ 255 < 2 ^ 8) ∧
    ((pendingOf (.wrreg 6 255) (blockOf [] [])).pending = .wrreg 6 255 :: [] ∧ 255 < 2 ^ 8) ∧
    ((pendingOf (.wrreg 4 31) (blockOf [] [])).pending = .wrreg 4 31 :: [] ∧
      31 < 2 ^ Config.lenW (pendingOf (.wrreg 4 31) (blockOf [] [])).capIn) ∧
    ((pendingOf (.wrreg 5 31) (blockOf [] [])).pending = .wrreg 5 31 :: [] ∧
      31 < 2 ^ Config.lenW (pendingOf (.wrreg 5 31) (blockOf [] [])).capIn) := by
  have h : ∀ a, 31 < 2 ^ Config.lenW (pendingOf a (blockOf [] [])).capIn := by
    intro a
    have : (pendingOf a (blockOf [] [])).capIn = 8 := rfl
    rw [this]
    unfold Config.lenW
    decide
  exact ⟨⟨rfl, h _⟩, ⟨rfl, h _⟩, ⟨rfl, by decide⟩, ⟨rfl, by decide⟩, ⟨rfl, h _⟩, rfl, h _⟩

theorem witness_RegisterReadReturnsWholeRegister :
    ((encoded (.rdreg 0)).pending = .rdreg 0 :: [] ∧ Reply.byte 0x02#8 = .byte (encoded (.rdreg 0)).cmd) ∧
    ((encoded (.rdreg 1)).pending = .rdreg 1 :: [] ∧ Reply.byte 0x01#8 = .byte (encoded (.rdreg 1)).status) ∧
    ((encoded (.rdreg 2)).pending = .rdreg 2 :: [] ∧ Reply.len 1 = .len (encoded (.rdreg 2)).lena) ∧
    ((encoded (.rdreg 3)).pending = .rdreg 3 :: [] ∧ Reply.len 0 = .len (encoded (.rdreg 3)).lenb) ∧
    ((encoded (.rdreg 4)).pending = .rdreg 4 :: [] ∧ Reply.len 2 = .len (encoded (.rdreg 4)).leno) ∧
    ((encoded (.rdreg 5)).pending = .rdreg 5 :: [] ∧ Reply.len 0 = .len (encoded (.rdreg 5)).errpos) ∧
    ((encoded (.rdreg 6)).pending = .rdreg 6 :: [] ∧ Reply.byte 0x00#8 = .byte (encoded (.rdreg 6)).errval) := by decide

theorem witness_RefusedExactlyWhenNotAdmitted :
    ((pendingOf (.wra 8 0x00#8) (blockOf [] [])).pending = .wra 8 0x00#8 :: [] ∧ HostAction.wf 8 (.wra 8 0x00#8) = false) ∧
    ((pendingOf (.wra 7 0x00#8) (blockOf [] [])).pending = .wra 7 0x00#8 :: [] ∧ HostAction.wf 8 (.wra 7 0x00#8) = true) := by
  decide

theorem witness_StepTakesOneAction :
    (∃ t, step (encoded (.rdo 1)) = .next t) ∧ (blockOf [0x4D#8] []).pending = [] := ⟨⟨_, rfl⟩, rfl⟩

theorem witness_OutcomeChangesOnlyByCommandOrReset : (encoded (.wrreg 2 1)).pending = .wrreg 2 1 :: [] ∧
    (∃ t, step (encoded (.wrreg 1 7)) = .next t) ∧ (encoded (.wrreg 1 7)).pending = .wrreg 1 7 :: [] ∧
    (∀ v, HostAction.wrreg 1 7 ≠ .wrreg 0 v) ∧ HostAction.wrreg 1 7 ≠ .reset :=
  ⟨rfl, ⟨_, rfl⟩, rfl, by simp, by simp⟩

theorem witness_OperandsChangeOnlyByHostWrites : (encoded (.wrreg 0 3)).pending = .wrreg 0 3 :: [] ∧
    (∃ t, step (encoded (.wrreg 0 3)) = .next t) ∧ HostAction.wrreg 0 3 ≠ .reset ∧ (∀ i v, HostAction.wrreg 0 3 ≠ .wra i v) ∧
    (∀ i v, HostAction.wrreg 0 3 ≠ .wrb i v) ∧ (∀ v, HostAction.wrreg 0 3 ≠ .wrreg 2 v) ∧
    ∀ v, HostAction.wrreg 0 3 ≠ .wrreg 3 v :=
  ⟨rfl, ⟨_, rfl⟩, by simp, by simp, by simp, by simp, by simp⟩

theorem witness_DoneClearedOnlyByReset :
    ((encoded (.wrreg 0 0)).pending = .wrreg 0 0 :: [] ∧ ∃ t, step (encoded (.wrreg 0 0)) = .next t) ∧
    ((encoded (.rdo 0)).pending = .rdo 0 :: [] ∧ HostAction.rdo 0 ≠ .reset ∧ (∃ t, step (encoded (.rdo 0)) = .next t) ∧
      statusDone (encoded (.rdo 0)).status = 1#1) ∧
    ((encoded .reset).pending = .reset :: [] ∧ ∃ t, step (encoded .reset) = .next t) :=
  ⟨⟨rfl, _, rfl⟩, ⟨rfl, by decide, ⟨_, rfl⟩, by decide⟩, rfl, _, rfl⟩

theorem witness_CarefulHostSeesNoFreeByte :
    (Inv (encoded (.rda 0)) ∧ (encoded (.rda 0)).pending = .rda 0 :: [] ∧ Careful (.rda 0) (encoded (.rda 0))) ∧
    (Inv (encoded (.rdo 1)) ∧ (encoded (.rdo 1)).pending = .rdo 1 :: [] ∧ Careful (.rdo 1) (encoded (.rdo 1))) ∧
    (Inv (encoded (.wrreg 0 3)) ∧ (encoded (.wrreg 0 3)).pending = .wrreg 0 3 :: [] ∧
      Careful (.wrreg 0 3) (encoded (.wrreg 0 3))) ∧
    (Inv (encoded .reset) ∧ (encoded .reset).pending = .reset :: [] ∧ Careful .reset (encoded .reset)) :=
  ⟨⟨encoded_inv _, rfl, rfl, by decide⟩, ⟨encoded_inv _, rfl, rfl, by decide⟩,
    ⟨encoded_inv _, rfl, rfl, fun i _ => operandsWritten_blockOf i [0x4D#8] []⟩, encoded_inv _, rfl, rfl, trivial⟩

theorem witness_ResetMeetsInvariants : 2 ≤ 2 ∧ 2 ≤ Config.resetCapIn := by decide

theorem witness_StepKeepsInvariant : Inv (encoded (.wrreg 0 3)) ∧ ∃ t, step (encoded (.wrreg 0 3)) = .next t :=
  ⟨encoded_inv _, _, rfl⟩

theorem encoded_text (a : HostAction) : OutputText (encoded a) := by
  refine ⟨fun _ _ => ⟨(by decide : 2 % 2 = 0), ?_⟩, fun _ h => absurd h (by decide : (0x02#8 : Byte) ≠ encode .b64enc)⟩
  intro j v h
  match j with
  | 0 => exact ⟨4#4, by cases h; decide⟩
  | 1 => exact ⟨13#4, by cases h; decide⟩
  | j + 2 => cases h

theorem witness_StepKeepsOutputText : OutputText (encoded (.wrreg 0 3)) ∧ ∃ t, step (encoded (.wrreg 0 3)) = .next t :=
  ⟨encoded_text _, _, rfl⟩

theorem witness_ScriptRunsStepByStep : ∃ t,
    runScript [.wra 0 0x4D#8, .wrreg 2 1, .wrreg 0 2, .rdo 0] { blockOf [] [] with pending := [.reset] } = .next t := ⟨_, rfl⟩

theorem witness_LoadScriptLoadsOperand :
    ([0x4D#8, 0x61#8] : List Byte).length ≤ (State.resetWith 2).capIn ∧
    (State.resetWith 2).capIn < ([0x4D#8, 0x61#8, 0x6E#8] : List Byte).length := by decide

/-- A full block of capacity 2 after `HEXENC`: its output does not fit a source buffer. -/
def fullBlock : State :=
  { State.resetWith 2 with
    cmd := 0x02#8, status := 0x01#8, lena := 2, leno := 4, srca := memOf 0 [0xFF#8, 0xFF#8],
    dst := memOf 0 [0x66#8, 0x66#8, 0x66#8, 0x66#8] }

theorem witness_MoveScriptFeedsOutputBack :
    (Inv (encoded .reset) ∧ (encoded .reset).leno ≤ (encoded .reset).capIn) ∧ (Inv fullBlock ∧ fullBlock.capIn < fullBlock.leno) := by
  refine ⟨⟨encoded_inv _, by decide⟩, ⟨by decide, ?_, ?_, by decide, by decide, by decide, ⟨rfl, ?_⟩, ⟨rfl, fun _ _ => rfl⟩, rfl, ?_,
    ?_, ?_⟩, by decide⟩
  · show 2 < 2 ^ Config.lenW 2
    unfold Config.lenW
    decide
  · exact Nat.two_pow_pos _
  · intro i hi
    have : 2 ≤ i := hi
    simp only [fullBlock, memOf, memRead]
    rw [if_neg (by omega), if_neg (by omega)]
  · exact fun h => absurd rfl h
  · exact fun _ => ⟨rfl, rfl⟩
  · exact fun h => absurd h (by decide : (0x01#8 : Byte) ≠ 0x00#8)

end Sys2Proof.Tests
end

section
/-! Every command completes with one of its outcomes and keeps the rest of the block (00_scope.md R6, R8). -/

namespace Sys2Proof.Machine

/-! ## What a result leaves in the outcome registers -/

/-- A completed command has `DONE` set, whatever its result (10_state.md R15). -/
theorem statusDone_resStatus (r : Except CodecError (List Byte)) : statusDone (resStatus r) = 1#1 := by
  cases r with
  | ok out => exact (by decide : statusDone 0x01#8 = 1#1)
  | error e =>
    have h : ∀ err : BitVec 3, statusDone (statusByte err 1#1) = 1#1 := by decide
    exact h (errCode e)

/-- No result sets one of the bits 7:4 of `STATUS` (10_state.md R14). -/
theorem resStatus_high_bits (r : Except CodecError (List Byte)) : resStatus r &&& 0xF0#8 = 0x00#8 := by
  cases r with
  | ok out => exact (by decide : 0x01#8 &&& 0xF0#8 = 0x00#8)
  | error e =>
    have h : ∀ err : BitVec 3, statusByte err 1#1 &&& 0xF0#8 = 0x00#8 := by decide
    exact h (errCode e)

/-- Only an `OK` result has output (60_exceptions.md R136). -/
theorem resOut_eq_nil {r : Except CodecError (List Byte)} (h : resStatus r ≠ 0x01#8) : resOut r = [] := by
  cases r with
  | ok out => exact absurd rfl h
  | error e => rfl

/-! ## The errors a command can end with -/

/-- The error kinds each command has (60_exceptions.md R130 to R135). -/
inductive CanRaise : Instr → CodecError → Prop where
  | illegalCmd (i : Instr) : CanRaise i .illegalCmd
  | hexOddLength : CanRaise .hexdec .oddLength
  | hexInvalidDigit (pos : Nat) (val : Byte) : CanRaise .hexdec (.invalidDigit pos val)
  | b64BadLength : CanRaise .b64dec .badLength
  | b64InvalidDigit (pos : Nat) (val : Byte) : CanRaise .b64dec (.invalidDigit pos val)
  | xorLengthMismatch (nx ny : Nat) : CanRaise .xor (.lengthMismatch nx ny)

theorem hexWindows_error {pos : Nat} {cs : List Byte} {e : CodecError} (h : hexWindows pos cs = .error e) :
    CanRaise .hexdec e := by
  induction pos, cs using hexWindows.induct with
  | case1 pos => cases h
  | case2 pos c => cases h; exact .hexOddLength
  | case3 pos c0 c1 rest h0 => simp only [hexWindows, h0] at h; cases h; exact .hexInvalidDigit _ _
  | case4 pos c0 c1 rest hi h0 h1 => simp only [hexWindows, h0, h1] at h; cases h; exact .hexInvalidDigit _ _
  | case5 pos c0 c1 rest hi h0 lo h1 e' he ih => simp only [hexWindows, h0, h1, he] at h; cases h; exact ih he
  | case6 pos c0 c1 rest hi h0 lo h1 out ho ih => simp only [hexWindows, h0, h1, ho] at h; cases h

theorem hexDecode_error {cs : List Byte} {e : CodecError} (h : hexDecode cs = .error e) : CanRaise .hexdec e := by
  unfold hexDecode at h
  split at h
  · cases h; exact .hexOddLength
  · exact hexWindows_error h

theorem b64Sextets_error {pos : Nat} {cs : List Byte} {e : CodecError} (h : b64Sextets pos cs = .error e) :
    CanRaise .b64dec e := by
  induction cs generalizing pos with
  | nil => cases h
  | cons c rest ih =>
    cases hc : b64Val c with
    | none => simp only [b64Sextets, hc] at h; cases h; exact .b64InvalidDigit _ _
    | some v =>
      cases hr : b64Sextets (pos + 1) rest with
      | error e' => simp only [b64Sextets, hc, hr] at h; cases h; exact ih hr
      | ok vs => simp only [b64Sextets, hc, hr] at h; cases h

theorem b64DecodeStripped_error {p : Nat} {cs : List Byte} {e : CodecError}
    (h : b64DecodeStripped p cs = .error e) : CanRaise .b64dec e := by
  unfold b64DecodeStripped at h
  split at h
  · cases h; exact b64Sextets_error ‹_›
  · cases h

theorem xorCombine_error {xs ys : List Byte} {e : CodecError} (h : xorCombine xs ys = .error e) : CanRaise .xor e := by
  unfold xorCombine at h
  split at h
  · cases h
  · cases h; exact .xorLengthMismatch _ _

/-- A command ends with no error but those of its kind, whatever its operands are. -/
theorem resultIn_error {i : Instr} {s : State} {e : CodecError} (h : (resultIn i s).1 = .error e) : CanRaise i e := by
  unfold resultIn resultOf at h
  split at h
  · cases i with
    | hexenc => cases h
    | b64enc => cases h
    | hexdec =>
      dsimp only at h
      split at h
      · cases h; exact .hexOddLength
      · exact hexDecode_error h
    | b64dec =>
      dsimp only at h
      split at h
      · exact b64DecodeStripped_error h
      · cases h; exact .b64BadLength
    | xor =>
      dsimp only at h
      split at h
      · exact xorCombine_error h
      · cases h; exact .xorLengthMismatch _ _
  · cases h; exact .illegalCmd i

/-! ## The obligations -/

/-- Settles O32: the state `exec` answers has the status of the command's result, and an error in it is one of the
command's own. -/
theorem everyCommandCompletes : Obligations.EveryCommandCompletes := by
  unfold Obligations.EveryCommandCompletes
  intro i s
  refine ⟨_, (exec_next_iff i s _).2 rfl, statusDone_resStatus _, fun h => by simp [resOut_eq_nil h], ?_⟩
  dsimp only
  cases hr : (resultIn i s).1 with
  | ok out => cases i <;> simp [resStatus]
  | error e =>
    cases resultIn_error hr with
    | illegalCmd => cases i <;> simp [resStatus, statusByte_err]
    | hexOddLength | hexInvalidDigit | b64BadLength | b64InvalidDigit | xorLengthMismatch =>
      simp [resStatus, statusByte_err]

/-- Settles O33: a command writes the outcome registers and `DST`, which lists its output and nothing else. -/
theorem commandFrame : Obligations.CommandFrame := by
  unfold Obligations.CommandFrame
  intro i s t h
  obtain rfl := (exec_next_iff i s t).1 h
  refine ⟨rfl, rfl, rfl, rfl, rfl, rfl, fun _ => rfl, fun _ => rfl, resStatus_high_bits _, fun j => ?_⟩
  simp

end Sys2Proof.Machine
end

section
/-! `DONE` over the host's actions: set by every command's end, cleared by `RESET` alone, read by no command (10_state.md R15). -/

namespace Sys2Proof.Machine

theorem finish_status (r : Except CodecError (List Byte)) (s : State) : (finish r s).status = resStatus r := by
  rw [finish_eq]

/-- However a command ends, `DONE` is set. -/
theorem statusDone_finish (r : Except CodecError (List Byte)) (s : State) : statusDone (finish r s).status = 1#1 := by
  rw [finish_status]
  exact statusDone_resStatus r

/-- A reserved word ends with `DONE` set as every other word does. -/
theorem statusDone_writeCmd {w : Byte} {s t : State} (h : writeCmd w s = .next t) : statusDone t.status = 1#1 := by
  rw [writeCmd_eq] at h
  injection h with h
  subst h
  cases decode w with
  | ok i => exact statusDone_finish (resultIn i s).1 _
  | error _ => exact statusDone_finish (.error .illegalCmd) _

theorem act_wrreg_cmd (v : Nat) (s : State) :
    act (.wrreg 0 v) s = if v < 2 ^ 8 then writeCmd (BitVec.ofNat 8 v) s else .refused .valueTooWide := rfl

theorem statusDone_act_wrreg_cmd {v : Nat} {s t : State} (h : act (.wrreg 0 v) s = .next t) :
    statusDone t.status = 1#1 := by
  rw [act_wrreg_cmd] at h
  split at h
  · exact statusDone_writeCmd h
  · cases h

/-- `STATUS` changes only by a reset or by a write to `CMD` (10_state.md R14). -/
theorem act_status_eq {a : HostAction} {s t : State} (h : act a s = .next t) (hr : a ≠ .reset)
    (hc : ∀ v, a ≠ .wrreg 0 v) : t.status = s.status := by
  obtain ⟨ha, -⟩ | ⟨buf, i, v, -, -, rfl⟩ | ⟨-, r, d, rfl⟩ | ⟨v, ha, -⟩ | ⟨buf, v, -, -, rfl⟩ | ⟨r, v, -, -, rfl⟩ :=
    act_cases h
  · exact absurd ha hr
  · cases buf <;> rfl
  · rfl
  · exact absurd ha (hc v)
  · cases buf <;> rfl
  · rfl

/-- No action but `RESET` takes `DONE` from 1. -/
theorem act_keeps_statusDone {a : HostAction} {s t : State} (h : act a s = .next t) (hr : a ≠ .reset)
    (hd : statusDone s.status = 1#1) : statusDone t.status = 1#1 := by
  by_cases hc : ∃ v, a = .wrreg 0 v
  · obtain ⟨v, rfl⟩ := hc
    exact statusDone_act_wrreg_cmd h
  · rw [act_status_eq h hr fun v hv => hc ⟨v, hv⟩]
    exact hd

theorem statusDone_resetWith (capIn : Nat) : statusDone (State.resetWith capIn).status = 0#1 :=
  (by decide : statusDone 0x00#8 = 0#1)

/-- No command reads `STATUS`: its result is a function of the operands, and its end overwrites the register. -/
theorem exec_ignores_status (i : Instr) (s : State) (v : Byte) : exec i { s with status := v } = exec i s := by
  have hres : resultIn i { s with status := v } = resultIn i s := rfl
  rw [exec_eq, exec_eq, hres, finish_eq, finish_eq]

/-- Settles O53: a step is its action, a command's end sets `DONE`, the other actions keep `STATUS`, and `RESET` clears it. -/
theorem doneClearedOnlyByReset : Obligations.DoneClearedOnlyByReset := by
  unfold Obligations.DoneClearedOnlyByReset
  refine ⟨?cmd, ?keep, ?reset, statusDone_resetWith _, exec_ignores_status⟩
  case cmd =>
    intro s t v rest hp h
    rw [step_cons hp] at h
    exact statusDone_act_wrreg_cmd h
  case keep =>
    intro s t a rest hp hr h hd
    rw [step_cons hp] at h
    exact act_keeps_statusDone h hr hd
  case reset =>
    intro s t rest hp h
    rw [step_cons hp] at h
    cases h
    exact statusDone_resetWith s.capIn

end Sys2Proof.Machine
end

section
/-! The opcode map read off the whole word: when a word is a command, and how a reserved word ends (30_encoding.md R51, R53). -/

namespace Sys2Proof

/-! ## The fields of a word and the masks of R51, as numbers -/

theorem rsvField_eq_zero_iff (w : Byte) : rsvField w = 0#5 ↔ w.toNat < 8 := by
  have hw := w.isLt
  simp only [rsvField, ← BitVec.toNat_inj, BitVec.extractLsb'_toNat, Nat.shiftRight_eq_div_pow, BitVec.toNat_ofNat]
  omega

theorem opField_toNat (w : Byte) : (opField w).toNat = w.toNat % 8 := by
  simp [opField]

theorem and_rsvMask_eq_zero_iff (w : Byte) : w &&& 0xF8#8 = 0#8 ↔ w.toNat < 8 := by
  revert w
  decide

theorem and_opMask_toNat (w : Byte) : (w &&& 0x07#8).toNat = w.toNat % 8 := by
  rw [BitVec.toNat_and]
  exact Nat.and_two_pow_sub_one_eq_mod w.toNat 3

/-! ## When the decoder accepts a word -/

theorem decodeOp_eq_ok_iff (op : BitVec 3) : (∃ i, decodeOp op = .ok i) ↔ 1 ≤ op.toNat ∧ op.toNat ≤ 5 := by
  unfold decodeOp
  split
  case h_6 h1 h2 h3 h4 h5 =>
    simp only [imp_false] at h1 h2 h3 h4 h5
    simp only [reduceCtorEq, exists_false, false_iff]
    omega
  all_goals simp [*]

/-- The commands are the words 1 to 5. -/
theorem decode_eq_ok_iff (w : Byte) : (∃ i, decode w = .ok i) ↔ 1 ≤ w.toNat ∧ w.toNat ≤ 5 := by
  by_cases hr : rsvField w = 0#5
  · have hlt := (rsvField_eq_zero_iff w).1 hr
    rw [decode, if_pos hr, decodeOp_eq_ok_iff, opField_toNat, Nat.mod_eq_of_lt hlt]
  · have hge := mt (rsvField_eq_zero_iff w).2 hr
    simp only [decode, if_neg hr, reduceCtorEq, exists_false, false_iff]
    omega

/-- Every other word is refused. -/
theorem decode_eq_error {w : Byte} (h : ¬ (1 ≤ w.toNat ∧ w.toNat ≤ 5)) : ∃ e, decode w = .error e := by
  cases hd : decode w with
  | ok i => exact absurd ((decode_eq_ok_iff w).1 ⟨i, hd⟩) h
  | error e => exact ⟨e, rfl⟩

/-- What R53 lists as reserved is no command. -/
theorem toNat_of_reserved {w : Byte} (h : w &&& 0xF8#8 ≠ 0#8 ∨ w = 0x00#8 ∨ w = 0x06#8 ∨ w = 0x07#8) :
    ¬ (1 ≤ w.toNat ∧ w.toNat ≤ 5) := by
  obtain hbits | rfl | rfl | rfl := h
  · have hge := mt (and_rsvMask_eq_zero_iff w).2 hbits
    omega
  · decide
  · decide
  · decide

end Sys2Proof

namespace Sys2Proof.Machine

/-! ## A reserved word at the port -/

/-- The port of `CMD` admits every word. -/
theorem act_wrreg_word (w : Byte) (s : State) : act (.wrreg 0 w.toNat) s = writeCmd w s := by
  rw [act_wrreg_cmd, if_pos w.isLt, BitVec.ofNat_toNat, BitVec.setWidth_eq]

/-- A word the decoder refuses is stored, and ends with `IllegalCmd`, without output or detail (30_encoding.md R53). -/
theorem writeCmd_refused {w : Byte} {e : DecodeReject} (h : decode w = .error e) (s : State) :
    writeCmd w s = .next { s with cmd := w, status := 0x09#8, leno := 0, errpos := 0, errval := 0x00#8, dst := [] } := by
  rw [writeCmd_eq, h]
  rfl

/-! ## The obligations -/

/-- Settles O1: the five words by evaluation; below 8 the word is its `op`, and the masks say the same. -/
theorem opcodeMapDecodesFiveWords : Obligations.OpcodeMapDecodesFiveWords := by
  unfold Obligations.OpcodeMapDecodesFiveWords
  refine ⟨rfl, rfl, rfl, rfl, rfl, fun w => ?_⟩
  rw [decode_eq_ok_iff, and_rsvMask_eq_zero_iff, and_opMask_toNat]
  omega

/-- Settles O4: of the words 0 to 5 one is refused, of the 250 above them all; and a refused word that is written ends with
`IllegalCmd`. -/
theorem reservedWordEndsIllegalCmd : Obligations.ReservedWordEndsIllegalCmd := by
  unfold Obligations.ReservedWordEndsIllegalCmd
  refine ⟨?count, ?step⟩
  case count =>
    rw [show 256 = 6 + 250 from rfl, List.range_add, List.filter_append, List.length_append,
      (List.filter_eq_self (l := List.map _ _)).2, List.length_map, List.length_range]
    · rfl
    · intro n hn
      obtain ⟨m, hm, rfl⟩ := List.mem_map.1 hn
      rw [List.mem_range] at hm
      obtain ⟨e, he⟩ := decode_eq_error (w := BitVec.ofNat 8 (6 + m)) (by rw [BitVec.toNat_ofNat]; omega)
      rw [he]
  case step =>
    intro s rest w hp hw
    obtain ⟨e, he⟩ := decode_eq_error (toNat_of_reserved hw)
    rw [step_cons hp, act_wrreg_word, writeCmd_refused he]
    rfl

end Sys2Proof.Machine
end

section
/-! The hex units: the two tables, and the cut of a byte into nibbles and its merge (40_hex.md R65 to R68). -/

namespace Sys2Proof.Machine

/-! ## The tables, as numbers -/

theorem hexChar_toNat_digit {n : Nibble} (h : n.toNat ≤ 9) : (hexChar n).toNat = 0x30 + n.toNat := by
  have hle : n ≤ 9#4 := by bv_omega
  rw [hexChar, if_pos hle]
  bv_omega

theorem hexChar_toNat_letter {n : Nibble} (h : 10 ≤ n.toNat) : (hexChar n).toNat = 0x61 + (n.toNat - 10) := by
  have hgt : ¬ n ≤ 9#4 := by bv_omega
  rw [hexChar, if_neg hgt]
  bv_omega

theorem hexVal_toNat (c : Byte) : (hexVal c).map BitVec.toNat =
    if 0x30 ≤ c.toNat ∧ c.toNat ≤ 0x39 then some (c.toNat - 0x30)
    else if 0x41 ≤ c.toNat ∧ c.toNat ≤ 0x46 then some (c.toNat - 0x41 + 10)
    else if 0x61 ≤ c.toNat ∧ c.toNat ≤ 0x66 then some (c.toNat - 0x61 + 10)
    else none := by
  simp only [hexVal, BitVec.le_def, BitVec.toNat_ofNat, Nat.reducePow, Nat.reduceMod]
  split
  case isTrue => exact congrArg some (by bv_omega)
  case isFalse =>
    split
    case isTrue => exact congrArg some (by bv_omega)
    case isFalse =>
      split
      case isTrue => exact congrArg some (by bv_omega)
      case isFalse => rfl

@[simp] theorem hexVal_hexChar (n : Nibble) : hexVal (hexChar n) = some n := by
  revert n
  decide

theorem hexChar_injective {n m : Nibble} (h : hexChar n = hexChar m) : n = m := by
  simpa using congrArg hexVal h

/-- The characters of the forward table are 0-9 and a-f. -/
theorem hexChar_range (n : Nibble) :
    (0x30#8 ≤ hexChar n ∧ hexChar n ≤ 0x39#8) ∨ (0x61#8 ≤ hexChar n ∧ hexChar n ≤ 0x66#8) := by
  revert n
  decide

/-- The character with every A-F replaced by a-f (R75). -/
def hexLower (c : Byte) : Byte := if 0x41#8 ≤ c ∧ c ≤ 0x46#8 then c + 0x20#8 else c

/-- The forward table undoes the inverse table up to case. -/
theorem hexChar_of_hexVal {c : Byte} {n : Nibble} (h : hexVal c = some n) : hexChar n = hexLower c := by
  have hall : ∀ c : Byte, (hexVal c).all (fun n => hexChar n = hexLower c) = true := by decide
  simpa [h] using hall c

/-! ## The halves of a byte -/

theorem hexSplit_fst_toNat (v : Byte) : (hexSplit v).1.toNat = v.toNat / 16 := by
  have hv := v.isLt
  simp only [hexSplit, BitVec.extractLsb'_toNat, Nat.shiftRight_eq_div_pow]
  omega

theorem hexSplit_snd_toNat (v : Byte) : (hexSplit v).2.toNat = v.toNat % 16 := by
  simp [hexSplit]

theorem hexMerge_toNat (h l : Nibble) : (hexMerge h l).toNat = 16 * h.toNat + l.toNat := by
  have hl := l.isLt
  rw [hexMerge, BitVec.toNat_append, ← Nat.shiftLeft_add_eq_or_of_lt hl, Nat.shiftLeft_eq]
  omega

@[simp] theorem hexMerge_hexSplit (v : Byte) : hexMerge (hexSplit v).1 (hexSplit v).2 = v := by
  apply BitVec.eq_of_toNat_eq
  rw [hexMerge_toNat, hexSplit_fst_toNat, hexSplit_snd_toNat]
  omega

@[simp] theorem hexSplit_hexMerge (h l : Nibble) : hexSplit (hexMerge h l) = (h, l) := by
  have hl := l.isLt
  refine Prod.ext (BitVec.eq_of_toNat_eq ?_) (BitVec.eq_of_toNat_eq ?_)
  · rw [hexSplit_fst_toNat, hexMerge_toNat]
    dsimp only
    omega
  · rw [hexSplit_snd_toNat, hexMerge_toNat]
    dsimp only
    omega

/-- Settles O6: both tables as numbers; the forward table is injective because the inverse table undoes it. -/
theorem hexAlphabetTables : Obligations.HexAlphabetTables := by
  unfold Obligations.HexAlphabetTables
  exact ⟨fun _ => ⟨hexChar_toNat_digit, hexChar_toNat_letter⟩, fun _ _ => hexChar_injective, hexVal_toNat, by rfl,
    hexVal_hexChar⟩

/-- Settles O7: the halves and the merge as numbers, and each undoes the other. -/
theorem hexSplitMergeInverse : Obligations.HexSplitMergeInverse := by
  unfold Obligations.HexSplitMergeInverse
  exact ⟨fun v => ⟨hexSplit_fst_toNat v, hexSplit_snd_toNat v⟩, hexMerge_toNat, hexMerge_hexSplit, hexSplit_hexMerge⟩

end Sys2Proof.Machine
end

section
/-! `hex_encode` and `hex_decode` on sequences of every length (40_hex.md R69, R71, R73, R75). -/

namespace Sys2Proof.Machine

/-! ## The text of `hex_encode` -/

theorem hexEncode_cons (v : Byte) (xs : List Byte) :
    hexEncode (v :: xs) = hexChar (hexSplit v).1 :: hexChar (hexSplit v).2 :: hexEncode xs := rfl

@[simp] theorem hexEncode_length (xs : List Byte) : (hexEncode xs).length = 2 * xs.length := by
  induction xs with
  | nil => rfl
  | cons v xs ih => simp only [hexEncode_cons, List.length_cons, ih]; omega

/-- The two characters of byte `k` stand at `2 * k` and `2 * k + 1`. -/
theorem hexEncode_getElem? {xs : List Byte} {k : Nat} {v : Byte} (h : xs[k]? = some v) :
    (hexEncode xs)[2 * k]? = some (hexChar (hexSplit v).1) ∧
    (hexEncode xs)[2 * k + 1]? = some (hexChar (hexSplit v).2) := by
  induction xs generalizing k with
  | nil => cases h
  | cons x xs ih =>
    cases k with
    | zero => cases h; exact ⟨rfl, rfl⟩
    | succ k => exact ih h

/-- Every character of the text is one of the forward table. -/
theorem exists_hexChar_of_mem_hexEncode {xs : List Byte} {c : Byte} (h : c ∈ hexEncode xs) : ∃ n, c = hexChar n := by
  induction xs with
  | nil => cases h
  | cons v xs ih =>
    simp only [hexEncode_cons, List.mem_cons] at h
    obtain rfl | rfl | h := h
    · exact ⟨_, rfl⟩
    · exact ⟨_, rfl⟩
    · exact ih h

/-! ## One window of `hex_decode` -/

theorem hexWindows_first_invalid {c0 : Byte} (h0 : hexVal c0 = none) (pos : Nat) (c1 : Byte) (cs : List Byte) :
    hexWindows pos (c0 :: c1 :: cs) = .error (.invalidDigit pos c0) := by
  simp only [hexWindows, h0]

theorem hexWindows_second_invalid {c0 c1 : Byte} {h : Nibble} (h0 : hexVal c0 = some h) (h1 : hexVal c1 = none)
    (pos : Nat) (cs : List Byte) :
    hexWindows pos (c0 :: c1 :: cs) = .error (.invalidDigit (pos + 1) c1) := by
  simp only [hexWindows, h0, h1]

/-- A valid window adds its merged byte in front of what the windows behind it give. -/
theorem hexWindows_valid {c0 c1 : Byte} {h l : Nibble} (h0 : hexVal c0 = some h) (h1 : hexVal c1 = some l)
    (pos : Nat) (cs : List Byte) :
    hexWindows pos (c0 :: c1 :: cs) = (hexWindows (pos + 2) cs).map (hexMerge h l :: ·) := by
  simp only [hexWindows, h0, h1]
  cases hexWindows (pos + 2) cs <;> rfl

/-- A window is decoded exactly when both its characters are valid and the windows behind it are decoded. -/
theorem hexWindows_cons_eq_ok_iff {pos : Nat} {c0 c1 : Byte} {cs out : List Byte} :
    hexWindows pos (c0 :: c1 :: cs) = .ok out ↔
      ∃ h l rest, hexVal c0 = some h ∧ hexVal c1 = some l ∧ hexWindows (pos + 2) cs = .ok rest ∧
        out = hexMerge h l :: rest := by
  cases h0 : hexVal c0 with
  | none => simp [hexWindows_first_invalid h0]
  | some h =>
    cases h1 : hexVal c1 with
    | none => simp [hexWindows_second_invalid h0 h1]
    | some l =>
      rw [hexWindows_valid h0 h1]
      cases hexWindows (pos + 2) cs <;> simp [Except.map, eq_comm]

/-! ## The windows of a whole input -/

/-- The windows of an encoded sequence decode to it. -/
theorem hexWindows_hexEncode (pos : Nat) (xs : List Byte) : hexWindows pos (hexEncode xs) = .ok xs := by
  induction xs generalizing pos with
  | nil => rfl
  | cons v xs ih =>
    rw [hexEncode_cons, hexWindows_valid (hexVal_hexChar _) (hexVal_hexChar _), ih, hexMerge_hexSplit]
    rfl

/-- What was decoded encodes to the input in lower case. -/
theorem hexEncode_of_hexWindows {pos : Nat} {cs out : List Byte} (hok : hexWindows pos cs = .ok out) :
    hexEncode out = cs.map hexLower := by
  induction cs using List.twoStepInduction generalizing pos out with
  | nil => cases hok; rfl
  | singleton c => cases hok
  | cons_cons c0 c1 cs ih _ =>
    obtain ⟨h, l, rest, h0, h1, hrest, rfl⟩ := hexWindows_cons_eq_ok_iff.1 hok
    rw [hexEncode_cons, hexSplit_hexMerge, hexChar_of_hexVal h0, hexChar_of_hexVal h1, ih hrest]
    rfl

/-- The invalid character of lowest index is the one reported. -/
theorem hexWindows_lowest_invalid {cs : List Byte} {p : Nat} {c : Byte} (pos : Nat) (heven : cs.length % 2 = 0)
    (hp : cs[p]? = some c) (hc : hexVal c = none)
    (hlow : ∀ (q : Nat) (d : Byte), q < p → cs[q]? = some d → hexVal d ≠ none) :
    hexWindows pos cs = .error (.invalidDigit (pos + p) c) := by
  induction cs using List.twoStepInduction generalizing pos p with
  | nil => cases hp
  | singleton c0 => cases heven
  | cons_cons c0 c1 cs ih _ =>
    match p with
    | 0 =>
      cases hp
      exact hexWindows_first_invalid hc pos c1 cs
    | 1 =>
      cases hp
      obtain ⟨h, h0⟩ := Option.ne_none_iff_exists'.1 (hlow 0 c0 (by omega) rfl)
      exact hexWindows_second_invalid h0 hc pos cs
    | p + 2 =>
      obtain ⟨h, h0⟩ := Option.ne_none_iff_exists'.1 (hlow 0 c0 (by omega) rfl)
      obtain ⟨l, h1⟩ := Option.ne_none_iff_exists'.1 (hlow 1 c1 (by omega) rfl)
      have hrest := ih (pos + 2) ((Nat.add_mod_right _ 2).symm.trans heven) hp fun q d hq hd => hlow (q + 2) d (by omega) hd
      rw [hexWindows_valid h0 h1, hrest, show pos + 2 + p = pos + (p + 2) by omega]
      rfl

/-- An input of even length without an invalid character is decoded. -/
theorem exists_hexWindows_eq_ok {cs : List Byte} (pos : Nat) (heven : cs.length % 2 = 0)
    (hvalid : ∀ c, c ∈ cs → hexVal c ≠ none) : ∃ out, hexWindows pos cs = .ok out := by
  induction cs using List.twoStepInduction generalizing pos with
  | nil => exact ⟨[], rfl⟩
  | singleton c => cases heven
  | cons_cons c0 c1 cs ih _ =>
    obtain ⟨h, h0⟩ := Option.ne_none_iff_exists'.1 (hvalid c0 (by simp))
    obtain ⟨l, h1⟩ := Option.ne_none_iff_exists'.1 (hvalid c1 (by simp))
    obtain ⟨rest, hrest⟩ := ih (pos + 2) ((Nat.add_mod_right _ 2).symm.trans heven) fun c hc => hvalid c (by simp [hc])
    exact ⟨_, hexWindows_cons_eq_ok_iff.2 ⟨h, l, rest, h0, h1, hrest, rfl⟩⟩

/-- Byte `k` of what was decoded is merged from the characters at `2 * k` and `2 * k + 1`. -/
theorem hexWindows_getElem? {pos k : Nat} {cs out : List Byte} {c0 c1 : Byte} {h l : Nibble}
    (hok : hexWindows pos cs = .ok out) (hc0 : cs[2 * k]? = some c0) (hc1 : cs[2 * k + 1]? = some c1)
    (h0 : hexVal c0 = some h) (h1 : hexVal c1 = some l) : out[k]? = some (hexMerge h l) := by
  induction cs using List.twoStepInduction generalizing pos k out with
  | nil => cases hc0
  | singleton c => cases hok
  | cons_cons d0 d1 cs ih _ =>
    obtain ⟨h', l', rest, h0', h1', hrest, rfl⟩ := hexWindows_cons_eq_ok_iff.1 hok
    cases k with
    | zero =>
      cases hc0
      cases hc1
      cases h0'.symm.trans h0
      cases h1'.symm.trans h1
      rfl
    | succ k =>
      rw [List.getElem?_cons_succ]
      exact ih (k := k) hrest hc0 hc1

/-! ## `hex_decode` -/

theorem hexDecode_odd {cs : List Byte} (h : cs.length % 2 = 1) : hexDecode cs = .error .oddLength := if_pos h

theorem hexDecode_even {cs : List Byte} (h : cs.length % 2 = 0) : hexDecode cs = hexWindows 0 cs :=
  if_neg (by omega)

/-- Only the windows of an input decode it. -/
theorem hexWindows_of_hexDecode {cs out : List Byte} (h : hexDecode cs = .ok out) : hexWindows 0 cs = .ok out := by
  obtain hodd | heven := (Nat.mod_two_eq_zero_or_one cs.length).symm
  · rw [hexDecode_odd hodd] at h; cases h
  · rwa [hexDecode_even heven] at h

theorem hexDecode_length {cs out : List Byte} (h : hexDecode cs = .ok out) : out.length = cs.length / 2 := by
  have hlen := congrArg List.length (hexEncode_of_hexWindows (hexWindows_of_hexDecode h))
  rw [hexEncode_length, List.length_map] at hlen
  omega

/-! ## The obligations -/

/-- Settles O11, by induction on the bytes: each puts two characters of the forward table in front. -/
theorem hexEncodeText : Obligations.HexEncodeText := by
  unfold Obligations.HexEncodeText
  refine fun xs => ⟨hexEncode_length xs, fun _ _ => hexEncode_getElem?, fun c hc => ?_⟩
  obtain ⟨n, rfl⟩ := exists_hexChar_of_mem_hexEncode hc
  exact hexChar_range n

/-- Settles O12: an encoded sequence has even length and its windows decode to it; and decoded windows encode to the input in
lower case. -/
theorem hexRoundTrip : Obligations.HexRoundTrip := by
  unfold Obligations.HexRoundTrip
  refine ⟨fun xs => ?_, fun cs out h => hexEncode_of_hexWindows (hexWindows_of_hexDecode h)⟩
  rw [hexDecode_even (by simp), hexWindows_hexEncode]

/-- Settles O13, by induction on the windows: the first invalid one decides, and without one every window gives its byte. -/
theorem hexDecodeFollowsWindows : Obligations.HexDecodeFollowsWindows := by
  unfold Obligations.HexDecodeFollowsWindows
  refine fun cs => ⟨hexDecode_odd, fun heven p c hp hc hlow => ?invalid, fun heven hvalid => ?valid⟩
  case invalid =>
    rw [hexDecode_even heven, hexWindows_lowest_invalid 0 heven hp hc hlow, Nat.zero_add]
  case valid =>
    obtain ⟨out, hout⟩ := exists_hexWindows_eq_ok 0 heven hvalid
    have hok : hexDecode cs = .ok out := by rw [hexDecode_even heven, hout]
    exact ⟨out, hok, hexDecode_length hok, fun _ _ _ _ _ => hexWindows_getElem? hout⟩

end Sys2Proof.Machine
end

section
/-! `HEXDEC` on a written operand, and the document's three boundary results (40_hex.md R72, R74). -/

namespace Sys2Proof.Machine

/-- On a written operand `HEXDEC` ends with `hex_decode` of it and draws no free byte. -/
theorem exec_hexdec_written {s : State} {cs : List Byte} (hcap : s.lena ≤ s.capIn) (hlen : cs.length = s.lena)
    (hm : Holds s.srca cs) : exec .hexdec s = .next (finish (hexDecode cs) s) := by
  have hdraw : drawRange s.srca 0 s.lena s.draws = (cs, s.draws) := by
    rw [← hlen]
    exact drawRange_written cs (by simpa [Holds] using hm)
  have hres : resultIn .hexdec s = (hexDecode cs, s.draws) := by
    by_cases hodd : s.lena % 2 = 1
    · simp [resultIn, resultOf, hcap, hodd, hexDecode_odd (hlen ▸ hodd)]
    · simp [resultIn, resultOf, hcap, hodd, hdraw]
  rw [exec_eq, hres]

theorem holds_nil (m : Memory) : Holds m [] := fun _ hi => absurd hi (Nat.not_lt_zero _)

/-- A memory holds a sequence one byte longer when it also has the byte behind. -/
theorem Holds.concat {m : Memory} {xs : List Byte} {v : Byte} (h : Holds m xs) (hv : memRead m xs.length = some v) :
    Holds m (xs ++ [v]) := by
  intro i hi
  obtain hlt | rfl : i < xs.length ∨ i = xs.length := by simp at hi; omega
  · rw [List.getElem?_append_left hlt, h i hlt]
  · rw [List.getElem?_concat_length, hv]

/-- Settles O24: in each case the operand is written, and `hex_decode` of it is evaluated. -/
theorem hexdecBoundaryResults : Obligations.HexdecBoundaryResults := by
  unfold Obligations.HexdecBoundaryResults
  refine fun s => ⟨fun hl => ?empty, fun hl hcap ha => ?one, fun hl hcap hz hz' => ?two⟩
  case empty =>
    rw [exec_hexdec_written (cs := []) (by omega) hl.symm (holds_nil _)]
    rfl
  case one =>
    rw [exec_hexdec_written (cs := [0x61#8]) (by omega) hl.symm ((holds_nil _).concat ha)]
    rfl
  case two =>
    rw [exec_hexdec_written (cs := [0x7A#8, 0x7A#8]) (by omega) hl.symm (((holds_nil _).concat hz).concat hz')]
    rfl

end Sys2Proof.Machine
end

section
/-! The base64 units: the two cuts of a 24-bit group, the two tables and the padding control (41_base64_encode.md R85 to R90,
42_base64_decode.md R105 to R109). -/

namespace Sys2Proof.Machine

/-! ## The cuts of a group, as bit slices -/

theorem regroup_eq_slices (x y z : Byte) :
    regroup x y z =
      (x.extractLsb' 2 6, x.extractLsb' 0 2 ++ y.extractLsb' 4 4, y.extractLsb' 0 4 ++ z.extractLsb' 6 2,
        z.extractLsb' 0 6) := by
  refine Prod.ext ?a (Prod.ext ?b (Prod.ext ?c ?d)) <;> dsimp only [regroup]
  case a => exact BitVec.setWidth_ushiftRight_eq_extractLsb
  case b =>
    ext i hi
    rw [BitVec.getElem_append]
    interval_cases i <;> simp
  case c =>
    ext i hi
    rw [BitVec.getElem_append]
    interval_cases i <;> simp
  case d =>
    ext i hi
    interval_cases i <;> simp

theorem ungroup_eq_slices (a b c d : Sextet) : ungroup a b c d =
    (a ++ b.extractLsb' 4 2, b.extractLsb' 0 4 ++ c.extractLsb' 2 4, c.extractLsb' 0 2 ++ d) := by
  refine Prod.ext ?_ (Prod.ext ?_ ?_) <;> dsimp only [ungroup] <;> ext i hi <;> rw [BitVec.getElem_append]
  · interval_cases i <;> simp
  · interval_cases i <;> simp
  · interval_cases i <;> simp

/-- The first and the last sextet lie in one byte; the second takes its bits from the end of `x` and the start of `y`, the third
from the end of `y` and the start of `z`. -/
theorem regroup_eq_word_fields (x y z : Byte) :
    regroup x y z =
      ((x ++ y ++ z).extractLsb' 18 6, (x ++ y ++ z).extractLsb' 12 6, (x ++ y ++ z).extractLsb' 6 6,
        (x ++ y ++ z).extractLsb' 0 6) := by
  rw [regroup_eq_slices]
  refine Prod.ext ?a (Prod.ext ?b (Prod.ext ?c ?d)) <;> dsimp only
  case a => rw [BitVec.extractLsb'_append_eq_of_le (by decide), BitVec.extractLsb'_append_eq_of_le (by decide)]
  case b =>
    rw [BitVec.extractLsb'_append_eq_of_le (by decide), BitVec.extractLsb'_append_eq_ite]
    rfl
  case c =>
    rw [BitVec.extractLsb'_append_eq_ite, dif_pos (by decide), dif_neg (by decide),
      BitVec.extractLsb'_append_eq_of_add_le (by decide)]
    rfl
  case d => rw [BitVec.extractLsb'_append_eq_of_add_le (by decide)]

@[simp] theorem ungroup_regroup (x y z : Byte) :
    ungroup (regroup x y z).1 (regroup x y z).2.1 (regroup x y z).2.2.1 (regroup x y z).2.2.2 = (x, y, z) := by
  rw [regroup_eq_slices, ungroup_eq_slices]
  refine Prod.ext ?_ (Prod.ext ?_ ?_) <;> dsimp only
  · rw [BitVec.extractLsb'_append_eq_left, BitVec.extractLsb'_append_extractLsb']
  · rw [BitVec.extractLsb'_append_eq_left, BitVec.extractLsb'_append_eq_right, BitVec.extractLsb'_append_extractLsb']
  · rw [BitVec.extractLsb'_append_eq_right, BitVec.extractLsb'_append_extractLsb']

@[simp] theorem regroup_ungroup (a b c d : Sextet) :
    regroup (ungroup a b c d).1 (ungroup a b c d).2.1 (ungroup a b c d).2.2 = (a, b, c, d) := by
  rw [regroup_eq_slices, ungroup_eq_slices]
  refine Prod.ext ?_ (Prod.ext ?_ (Prod.ext ?_ ?_)) <;> dsimp only
  · rw [BitVec.extractLsb'_append_eq_left]
  · rw [BitVec.extractLsb'_append_eq_left, BitVec.extractLsb'_append_eq_right, BitVec.extractLsb'_append_extractLsb']
  · rw [BitVec.extractLsb'_append_eq_left, BitVec.extractLsb'_append_eq_right, BitVec.extractLsb'_append_extractLsb']
  · rw [BitVec.extractLsb'_append_eq_right]

/-! ## The filler bits of a short group -/

theorem regroup_one_byte_unused (x : Byte) : (regroup x 0x00#8 0x00#8).2.2 = (0#6, 0#6) := rfl

theorem regroup_two_bytes_unused (x y : Byte) : (regroup x y 0x00#8).2.2.2 = 0#6 := rfl

theorem regroup_one_byte_filler (x : Byte) : (regroup x 0x00#8 0x00#8).2.1.extractLsb' 0 4 = 0#4 := by
  rw [regroup_eq_slices, BitVec.extractLsb'_append_eq_right]
  rfl

theorem regroup_two_bytes_filler (x y : Byte) : (regroup x y 0x00#8).2.2.1.extractLsb' 0 2 = 0#2 := by
  rw [regroup_eq_slices, BitVec.extractLsb'_append_eq_right]
  rfl

/-! ## The tables, as numbers -/

theorem b64Char_toNat (x : Sextet) : (b64Char x).toNat =
    if x.toNat ≤ 25 then 0x41 + x.toNat
    else if x.toNat ≤ 51 then 0x61 + (x.toNat - 26)
    else if x.toNat ≤ 61 then 0x30 + (x.toNat - 52)
    else if x.toNat = 62 then 0x2B else 0x2F := by
  simp only [b64Char, BitVec.le_def, ← BitVec.toNat_inj (y := 62#6), BitVec.toNat_ofNat, Nat.reducePow, Nat.reduceMod]
  split
  case isTrue => bv_omega
  case isFalse =>
    split
    case isTrue => bv_omega
    case isFalse =>
      split
      case isTrue => bv_omega
      case isFalse => split <;> rfl

theorem b64Val_toNat (c : Byte) : (b64Val c).map BitVec.toNat =
    if 0x41 ≤ c.toNat ∧ c.toNat ≤ 0x5A then some (c.toNat - 0x41)
    else if 0x61 ≤ c.toNat ∧ c.toNat ≤ 0x7A then some (c.toNat - 0x61 + 26)
    else if 0x30 ≤ c.toNat ∧ c.toNat ≤ 0x39 then some (c.toNat - 0x30 + 52)
    else if c.toNat = 0x2B then some 62 else if c.toNat = 0x2F then some 63 else none := by
  simp only [b64Val, BitVec.le_def, ← BitVec.toNat_inj (x := c), BitVec.toNat_ofNat, Nat.reducePow, Nat.reduceMod]
  split
  case isTrue => exact congrArg some (by bv_omega)
  case isFalse =>
    split
    case isTrue => exact congrArg some (by bv_omega)
    case isFalse =>
      split
      case isTrue => exact congrArg some (by bv_omega)
      case isFalse =>
        split
        case isTrue => rfl
        case isFalse => split <;> rfl

@[simp] theorem b64Val_b64Char (x : Sextet) : b64Val (b64Char x) = some x := by
  revert x
  decide

theorem b64Char_of_b64Val {c : Byte} {x : Sextet} (h : b64Val c = some x) : b64Char x = c := by
  have hall : ∀ c : Byte, (b64Val c).all (fun x => b64Char x = c) = true := by decide
  simpa [h] using hall c

theorem b64Char_injective {x y : Sextet} (h : b64Char x = b64Char y) : x = y := by
  simpa using congrArg b64Val h

@[simp] theorem b64Val_padChar : b64Val padChar = none := rfl

theorem b64Char_ne_padChar (x : Sextet) : b64Char x ≠ padChar := by
  intro h
  simpa using congrArg b64Val h

/-! ## The padding of a text -/

theorem padCount_concat_concat (cs : List Byte) (c' c : Byte) :
    padCount (cs ++ [c'] ++ [c]) = if c = padChar then if c' = padChar then 2 else 1 else 0 := by
  simp [padCount]

theorem padCount_eq (cs : List Byte) : padCount cs =
    if 2 ≤ cs.length ∧ cs[cs.length - 1]? = some padChar ∧ cs[cs.length - 2]? = some padChar then 2
    else if 1 ≤ cs.length ∧ cs[cs.length - 1]? = some padChar then 1 else 0 := by
  obtain rfl | ⟨init, c, rfl⟩ := List.eq_nil_or_concat' cs
  · rfl
  obtain rfl | ⟨pre, c', rfl⟩ := List.eq_nil_or_concat' init
  · simp [padCount]
  · rw [padCount_concat_concat]
    by_cases hc : c = padChar <;> simp [hc]

/-! ## The obligations -/

/-- Settles O8: the shifts and masks as bit slices; the slices of the one cut put those of the other together again. -/
theorem regroupAndUngroupCutTheSameBits : Obligations.RegroupAndUngroupCutTheSameBits := by
  unfold Obligations.RegroupAndUngroupCutTheSameBits
  exact ⟨fun x y z => ⟨regroup_eq_slices x y z, regroup_eq_word_fields x y z⟩, ungroup_eq_slices, ungroup_regroup,
    regroup_ungroup⟩

/-- Settles O9: both tables as numbers; that the inverse table undoes the forward one makes it injective, and keeps `'='`, which is
invalid, out of it. -/
theorem b64AlphabetTables : Obligations.B64AlphabetTables := by
  unfold Obligations.B64AlphabetTables
  exact ⟨b64Char_toNat, fun _ _ => b64Char_injective, b64Char_ne_padChar, b64Val_toNat, by rfl, b64Val_padChar,
    b64Val_b64Char, fun _ _ => b64Char_of_b64Val⟩

/-- Settles O16: the tables of the unit by their definition, the filler bits by the slices of `Regroup`, and `PadCount` by the last
two characters. -/
theorem paddingControlBothWays : Obligations.PaddingControlBothWays := by
  unfold Obligations.PaddingControlBothWays
  exact ⟨fun _ _ => ⟨rfl, rfl, rfl⟩, fun _ _ _ _ => ⟨rfl, rfl, rfl⟩,
    fun x y => ⟨regroup_one_byte_unused x, regroup_one_byte_filler x, regroup_two_bytes_unused x y,
      regroup_two_bytes_filler x y⟩, padCount_eq⟩

end Sys2Proof.Machine
end

section
/-! `base64_encode` on sequences of every length: its groups, and its text with the padding behind (41_base64_encode.md R91, R92, R94). -/

namespace Sys2Proof.Machine

/-! ## The groups -/

theorem exists_encGroup_eq_padEmit (m : GroupSize) (x y z : Byte) :
    ∃ a b c d, encGroup m x y z = padEmit m a b c d := ⟨_, _, _, _, rfl⟩

@[simp] theorem encGroup_length (m : GroupSize) (x y z : Byte) : (encGroup m x y z).length = 4 := by
  cases m <;> rfl

@[simp] theorem b64Encode_length (xs : List Byte) : (b64Encode xs).length = 4 * ((xs.length + 2) / 3) := by
  induction xs using b64Encode.induct with
  | case1 => rfl
  | case2 x => simp [b64Encode]
  | case3 x y => simp [b64Encode]
  | case4 x y z rest ih =>
    simp only [b64Encode, List.length_append, encGroup_length, ih, List.length_cons]
    omega

/-- The size of a group for which `n` bytes are left, where any are (R91). -/
def groupSize (n : Nat) : GroupSize := if n = 1 then .one else if n = 2 then .two else .three

/-- The characters of group `g` stand at `4 * g`; its bytes stand at `3 * g`. -/
theorem b64Encode_group {xs : List Byte} {g : Nat} (h : 3 * g < xs.length) :
    ((b64Encode xs).drop (4 * g)).take 4 =
      encGroup (groupSize (xs.length - 3 * g))
        (xs.getD (3 * g) 0#8) (xs.getD (3 * g + 1) 0#8) (xs.getD (3 * g + 2) 0#8) := by
  induction xs using b64Encode.induct generalizing g with
  | case1 => cases h
  | case2 x =>
    obtain rfl : g = 0 := by rw [List.length_singleton] at h; omega
    rfl
  | case3 x y =>
    obtain rfl : g = 0 := by simp only [List.length_cons, List.length_nil] at h; omega
    rfl
  | case4 x y z rest ih =>
    rw [b64Encode]
    cases g with
    | zero =>
      rw [Nat.mul_zero, List.drop_zero, List.take_left' (encGroup_length _ _ _ _)]
      rfl
    | succ g =>
      rw [List.length_cons, List.length_cons, List.length_cons] at h ⊢
      have hleft : rest.length + 1 + 1 + 1 - 3 * (g + 1) = rest.length - 3 * g := by omega
      rw [Nat.mul_succ 4, Nat.add_comm, ← List.drop_drop, List.drop_left' (encGroup_length _ _ _ _), ih (by omega), hleft]
      rfl

/-! ## The text and its padding -/

/-- Only the last group can be short, so all padding stands behind all characters of the alphabet. -/
theorem b64Encode_eq_text_append_padding (xs : List Byte) :
    ∃ ss : List Sextet, b64Encode xs = ss.map b64Char ++ List.replicate ((3 - xs.length % 3) % 3) padChar := by
  induction xs using b64Encode.induct with
  | case1 => exact ⟨[], rfl⟩
  | case2 x => exact ⟨[_, _], rfl⟩
  | case3 x y => exact ⟨[_, _, _], rfl⟩
  | case4 x y z rest ih =>
    obtain ⟨ss, hss⟩ := ih
    obtain ⟨a, b, c, d, hgroup⟩ := exists_encGroup_eq_padEmit .three x y z
    have hmod : (x :: y :: z :: rest).length % 3 = rest.length % 3 := Nat.add_mod_right _ 3
    refine ⟨a :: b :: c :: d :: ss, ?_⟩
    rw [b64Encode, hgroup, hss, hmod]
    rfl

theorem takeWhile_padChar_reverse (ss : List Sextet) (n : Nat) :
    (ss.map b64Char ++ List.replicate n padChar).reverse.takeWhile (fun c => c = padChar) = List.replicate n padChar := by
  rw [List.reverse_append, List.reverse_replicate, List.takeWhile_append_of_pos (by simp)]
  cases ss using List.reverseRecOn with
  | nil => simp
  | append_singleton ss s => simp [b64Char_ne_padChar]

theorem b64Encode_trailing_padding (xs : List Byte) :
    ((b64Encode xs).reverse.takeWhile (fun c => c = padChar)).length = (3 - xs.length % 3) % 3 := by
  obtain ⟨ss, hss⟩ := b64Encode_eq_text_append_padding xs
  rw [hss, takeWhile_padChar_reverse, List.length_replicate]

/-- A character before the padding is of the alphabet; the padding is at most two characters long. -/
theorem b64Encode_getElem?_cases {xs : List Byte} {j : Nat} {c : Byte} (h : (b64Encode xs)[j]? = some c) :
    (∃ x, c = b64Char x) ∨ (c = padChar ∧ (b64Encode xs).length ≤ j + 2) := by
  obtain ⟨ss, hss⟩ := b64Encode_eq_text_append_padding xs
  rw [hss] at h ⊢
  by_cases hj : j < (ss.map b64Char).length
  · rw [List.getElem?_append_left hj, List.getElem?_map] at h
    obtain ⟨x, -, rfl⟩ := Option.map_eq_some_iff.1 h
    exact .inl ⟨x, rfl⟩
  · rw [List.getElem?_append_right (by omega)] at h
    refine .inr ⟨List.eq_of_mem_replicate (List.mem_of_getElem? h), ?_⟩
    rw [List.length_append, List.length_replicate]
    omega

/-! ## The obligation -/

/-- Settles O14, by induction on the groups: each full one puts four characters of the alphabet in front. -/
theorem b64EncodeGroupsAndPadding : Obligations.B64EncodeGroupsAndPadding := by
  unfold Obligations.B64EncodeGroupsAndPadding
  exact fun xs => ⟨b64Encode_length xs, fun _ => b64Encode_group, b64Encode_trailing_padding xs,
    fun _ _ => b64Encode_getElem?_cases⟩

end Sys2Proof.Machine
end

section
/-! `base64_decode` (42_base64_decode.md section 2): its stripped text as sextets, the regrouping of these, and the padding that is
stripped. -/

namespace Sys2Proof.Machine

/-! ## The sextets of a stripped text -/

theorem b64Sextets_eq_ok_iff {pos : Nat} {cs : List Byte} {ss : List Sextet} :
    b64Sextets pos cs = .ok ss ↔ cs = ss.map b64Char := by
  induction cs generalizing pos ss with
  | nil => cases ss <;> simp [b64Sextets]
  | cons c cs ih =>
    cases hc : b64Val c with
    | none =>
      have hne : ∀ v, c ≠ b64Char v := by rintro v rfl; simp at hc
      cases ss <;> simp [b64Sextets, hc, hne]
    | some v =>
      obtain rfl := b64Char_of_b64Val hc
      cases ss with
      | nil => cases hrest : b64Sextets (pos + 1) cs <;> simp [b64Sextets, hrest]
      | cons w ws =>
        have hv : b64Char v = b64Char w ↔ v = w := ⟨b64Char_injective, congrArg b64Char⟩
        rw [List.map_cons, List.cons.injEq, hv, ← ih (pos := pos + 1)]
        cases hrest : b64Sextets (pos + 1) cs <;> simp [b64Sextets, hrest]

/-- A valid character behind a text adds its sextet, where the text before it has any. -/
theorem b64Sextets_concat {c : Byte} {v : Sextet} (hc : b64Val c = some v) (pos : Nat) (cs : List Byte) :
    b64Sextets pos (cs ++ [c]) = (b64Sextets pos cs).map (· ++ [v]) := by
  induction cs generalizing pos with
  | nil => simp [b64Sextets, hc, Except.map]
  | cons d cs ih =>
    cases hd : b64Val d with
    | none => simp [b64Sextets, hd, Except.map]
    | some w => cases hrest : b64Sextets (pos + 1) cs <;> simp [b64Sextets, hd, ih, hrest, Except.map]

/-- The invalid character of lowest index is the one reported. -/
theorem b64Sextets_lowest_invalid {cs : List Byte} {p : Nat} {c : Byte} (pos : Nat) (hp : cs[p]? = some c)
    (hc : b64Val c = none) (hlow : ∀ (q : Nat) (d : Byte), q < p → cs[q]? = some d → b64Val d ≠ none) :
    b64Sextets pos cs = .error (.invalidDigit (pos + p) c) := by
  induction cs generalizing pos p with
  | nil => cases hp
  | cons d cs ih =>
    cases p with
    | zero =>
      cases hp
      simp [b64Sextets, hc]
    | succ p =>
      obtain ⟨v, hd⟩ := Option.ne_none_iff_exists'.1 (hlow 0 d (by omega) rfl)
      have hrest := ih (pos + 1) hp fun q e hq he => hlow (q + 1) e (by omega) he
      simp only [b64Sextets, hd, hrest]
      rw [Nat.add_assoc, Nat.add_comm 1]

theorem exists_eq_map_b64Char {cs : List Byte} (hvalid : ∀ c ∈ cs, b64Val c ≠ none) :
    ∃ ss : List Sextet, cs = ss.map b64Char := by
  have hrange : cs ∈ Set.range (List.map b64Char) := by
    rw [Set.range_list_map]
    intro c hc
    obtain ⟨v, hv⟩ := Option.ne_none_iff_exists'.1 (hvalid c hc)
    exact ⟨v, b64Char_of_b64Val hv⟩
  obtain ⟨ss, hss⟩ := hrange
  exact ⟨ss, hss.symm⟩

/-! ## The regrouping -/

theorem ungroupAll_cons (a b c d : Sextet) (ss : List Sextet) :
    ungroupAll (a :: b :: c :: d :: ss) =
      (ungroup a b c d).1 :: (ungroup a b c d).2.1 :: (ungroup a b c d).2.2 :: ungroupAll ss := rfl

theorem ungroupAll_regroup (x y z : Byte) (ss : List Sextet) :
    ungroupAll ((regroup x y z).1 :: (regroup x y z).2.1 :: (regroup x y z).2.2.1 :: (regroup x y z).2.2.2 :: ss) =
      x :: y :: z :: ungroupAll ss := by
  rw [ungroupAll_cons, ungroup_regroup]

@[simp] theorem ungroupAll_length : ∀ ss : List Sextet, (ungroupAll ss).length = 3 * (ss.length / 4)
  | [] | [_] | [_, _] | [_, _, _] => by simp [ungroupAll]
  | a :: b :: c :: d :: rest => by
    simp only [ungroupAll_cons, List.length_cons, ungroupAll_length rest]
    omega

/-- Whole groups are regrouped apart from what stands behind them. -/
theorem ungroupAll_append : ∀ {ss : List Sextet}, ss.length % 4 = 0 → ∀ ts : List Sextet,
    ungroupAll (ss ++ ts) = ungroupAll ss ++ ungroupAll ts
  | [], _, _ => rfl
  | [_], h, _ | [_, _], h, _ | [_, _, _], h, _ => by cases h
  | a :: b :: c :: d :: rest, h, ts => by
    have hrest : rest.length % 4 = 0 := (Nat.add_mod_right _ 4).symm.trans h
    simp only [List.cons_append, ungroupAll_cons, ungroupAll_append hrest ts]

/-- The bytes of group `g` stand at `3 * g`; its sextets stand at `4 * g`. -/
theorem ungroupAll_drop {ss : List Sextet} {g : Nat} (hg : 4 * g ≤ ss.length) :
    (ungroupAll ss).drop (3 * g) = ungroupAll (ss.drop (4 * g)) := by
  have hlen : (ss.take (4 * g)).length = 4 * g := List.length_take_of_le hg
  conv_lhs => rw [← List.take_append_drop (4 * g) ss, ungroupAll_append (by omega)]
  rw [List.drop_left' (by rw [ungroupAll_length]; omega)]

/-- Each byte of group `g`, where `v` lists the sextets. -/
theorem ungroupAll_getElem?_group {ss : List Sextet} {v : Nat → Sextet} {g : Nat}
    (hv : ∀ q, q < ss.length → ss[q]? = some (v q)) (hg : 4 * g + 3 < ss.length) :
    (ungroupAll ss)[3 * g]? = some (ungroup (v (4 * g)) (v (4 * g + 1)) (v (4 * g + 2)) (v (4 * g + 3))).1 ∧
    (ungroupAll ss)[3 * g + 1]? = some (ungroup (v (4 * g)) (v (4 * g + 1)) (v (4 * g + 2)) (v (4 * g + 3))).2.1 ∧
    (ungroupAll ss)[3 * g + 2]? = some (ungroup (v (4 * g)) (v (4 * g + 1)) (v (4 * g + 2)) (v (4 * g + 3))).2.2 := by
  have hcons : ∀ q, q < ss.length → ss.drop q = v q :: ss.drop (q + 1) := fun q hq => by
    rw [List.drop_eq_getElem_cons hq, (List.getElem_eq_iff hq).2 (hv q hq)]
  have hdrop : ss.drop (4 * g) = v (4 * g) :: v (4 * g + 1) :: v (4 * g + 2) :: v (4 * g + 3) :: ss.drop (4 * g + 4) := by
    rw [hcons _ (by omega), hcons _ (by omega), hcons _ (by omega), hcons _ hg]
  have hat : ∀ k, (ungroupAll ss)[3 * g + k]? = (ungroupAll (ss.drop (4 * g)))[k]? := fun k => by
    rw [← ungroupAll_drop (by omega), List.getElem?_drop]
  rw [hdrop, ungroupAll_cons] at hat
  exact ⟨hat 0, hat 1, hat 2⟩

/-! ## The decoded bytes -/

/-- The bytes of a stripped text with sextets `ss` before `p` characters of padding (R111 steps 3 and 4). -/
def decodedBytes (p : Nat) (ss : List Sextet) : List Byte := (ungroupAll (ss ++ List.replicate p 0#6)).rdrop p

theorem b64DecodeStripped_eq_map (p : Nat) (cs : List Byte) :
    b64DecodeStripped p cs = (b64Sextets 0 cs).map (decodedBytes p) := by
  unfold b64DecodeStripped
  cases b64Sextets 0 cs <;> rfl

theorem b64DecodeStripped_map_b64Char (p : Nat) (ss : List Sextet) :
    b64DecodeStripped p (ss.map b64Char) = .ok (decodedBytes p ss) := by
  rw [b64DecodeStripped_eq_map, b64Sextets_eq_ok_iff.2 rfl]
  rfl

theorem decodedBytes_length (p : Nat) (ss : List Sextet) :
    (decodedBytes p ss).length = 3 * ((ss.length + p) / 4) - p := by
  simp [decodedBytes, List.rdrop]

theorem decodedBytes_getElem? {p i : Nat} {ss : List Sextet} (hi : i < (decodedBytes p ss).length) :
    (decodedBytes p ss)[i]? = (ungroupAll (ss ++ List.replicate p 0#6))[i]? := by
  have hlt : i < (ungroupAll (ss ++ List.replicate p 0#6)).length - p := by
    simpa [decodedBytes_length] using hi
  exact List.getElem?_take_of_lt hlt

/-- Before one `'='` the third sextet of the last group gives its bits 5:2 alone (R113). -/
theorem decodedBytes_one {ss : List Sextet} (hss : ss.length % 4 = 0) (a b c : Sextet) :
    decodedBytes 1 (ss ++ [a, b, c]) = ungroupAll ss ++ [a ++ b.extractLsb' 4 2, b.extractLsb' 0 4 ++ c.extractLsb' 2 4] := by
  have hlast : ungroupAll [a, b, c, 0#6] =
      [a ++ b.extractLsb' 4 2, b.extractLsb' 0 4 ++ c.extractLsb' 2 4] ++ [c.extractLsb' 0 2 ++ 0#6] := by
    rw [ungroupAll_cons, ungroup_eq_slices]
    rfl
  have htail : ss ++ [a, b, c] ++ List.replicate 1 0#6 = ss ++ [a, b, c, 0#6] := by simp
  rw [decodedBytes, htail, ungroupAll_append hss, hlast, ← List.append_assoc, List.rdrop_concat_succ, List.rdrop_zero]

/-- Before two `'='` the second sextet of the last group gives its bits 5:4 alone (R113). -/
theorem decodedBytes_two {ss : List Sextet} (hss : ss.length % 4 = 0) (a b : Sextet) :
    decodedBytes 2 (ss ++ [a, b]) = ungroupAll ss ++ [a ++ b.extractLsb' 4 2] := by
  have hlast : ungroupAll [a, b, 0#6, 0#6] = [a ++ b.extractLsb' 4 2] ++ [b.extractLsb' 0 4 ++ 0#4] ++ [0#8] := by
    rw [ungroupAll_cons, ungroup_eq_slices]
    rfl
  have htail : ss ++ [a, b] ++ List.replicate 2 0#6 = ss ++ [a, b, 0#6, 0#6] := by simp
  rw [decodedBytes, htail, ungroupAll_append hss, hlast, ← List.append_assoc, ← List.append_assoc, List.rdrop_concat_succ,
    List.rdrop_concat_succ, List.rdrop_zero]

/-- Two valid last characters decode alike where their sextets give the same bytes behind every text. -/
theorem b64DecodeStripped_concat_congr {p : Nat} {cs : List Byte} {c c' : Byte} {v v' : Sextet} (hc : b64Val c = some v)
    (hc' : b64Val c' = some v')
    (hbytes : ∀ ss : List Sextet, cs = ss.map b64Char → decodedBytes p (ss ++ [v]) = decodedBytes p (ss ++ [v'])) :
    b64DecodeStripped p (cs ++ [c]) = b64DecodeStripped p (cs ++ [c']) := by
  rw [b64DecodeStripped_eq_map, b64DecodeStripped_eq_map, b64Sextets_concat hc, b64Sextets_concat hc']
  cases hss : b64Sextets 0 cs with
  | error e => rfl
  | ok ss => exact congrArg Except.ok (hbytes ss (b64Sextets_eq_ok_iff.1 hss))

/-! ## `PadCount` and the length rule -/

/-- `PadCount` counts the trailing `'='`, but two at most (R109). -/
theorem padCount_eq_min (cs : List Byte) : padCount cs = min 2 (cs.reverse.takeWhile (fun c => c = padChar)).length := by
  unfold padCount
  match cs.reverse with
  | [] => rfl
  | [c] => by_cases hc : c = padChar <;> simp [hc]
  | c :: c' :: rest =>
    by_cases hc : c = padChar
    · by_cases hc' : c' = padChar <;> simp [hc, hc']
    · simp [hc]

theorem padCount_le_length (cs : List Byte) : padCount cs ≤ cs.length := by
  have hle := (cs.reverse.takeWhile_sublist (fun c => c = padChar)).length_le
  rw [List.length_reverse] at hle
  rw [padCount_eq_min]
  omega

theorem padCount_map_b64Char_append (ss : List Sextet) {p : Nat} (hp : p ≤ 2) :
    padCount (ss.map b64Char ++ List.replicate p padChar) = p := by
  rw [padCount_eq_min, takeWhile_padChar_reverse, List.length_replicate, Nat.min_eq_right hp]

theorem padCount_valid_append {c : Byte} {v : Sextet} (hc : b64Val c = some v) (cs : List Byte) {p : Nat} (hp : p ≤ 2) :
    padCount (cs ++ [c] ++ List.replicate p padChar) = p := by
  have hne : c ≠ padChar := by rintro rfl; simp at hc
  rw [padCount_eq_min, List.reverse_append, List.reverse_replicate, List.takeWhile_append_of_pos (by simp)]
  simp [hne, hp]

theorem b64Decode_badLength {cs : List Byte} (h : cs.length % 4 ≠ 0) : b64Decode cs = .error .badLength := if_neg h

theorem b64Decode_eq_stripped {cs : List Byte} (h : cs.length % 4 = 0) :
    b64Decode cs = b64DecodeStripped (padCount cs) (cs.take (cs.length - padCount cs)) := if_pos h

/-- A text with all its padding behind it is stripped of the padding. -/
theorem b64Decode_append_padding {cs : List Byte} {p : Nat} (hlen : (cs.length + p) % 4 = 0)
    (hp : padCount (cs ++ List.replicate p padChar) = p) :
    b64Decode (cs ++ List.replicate p padChar) = b64DecodeStripped p cs := by
  rw [b64Decode_eq_stripped (by simpa using hlen), hp, List.take_left' (by simp)]

/-! ## The text of the encoder -/

/-- The text of `xs` has sextets that regroup to `xs`, with a zero byte behind for each `'='`. -/
theorem exists_sextets_of_b64Encode (xs : List Byte) : ∃ ss : List Sextet,
    b64Encode xs = ss.map b64Char ++ List.replicate ((3 - xs.length % 3) % 3) padChar ∧
    ungroupAll (ss ++ List.replicate ((3 - xs.length % 3) % 3) 0#6) =
      xs ++ List.replicate ((3 - xs.length % 3) % 3) 0x00#8 := by
  induction xs using b64Encode.induct with
  | case1 => exact ⟨[], rfl, rfl⟩
  | case2 x => exact ⟨[_, _], rfl, ungroupAll_regroup x 0x00#8 0x00#8 []⟩
  | case3 x y => exact ⟨[_, _, _], rfl, ungroupAll_regroup x y 0x00#8 []⟩
  | case4 x y z rest ih =>
    obtain ⟨ss, htext, hbytes⟩ := ih
    have hmod : (x :: y :: z :: rest).length % 3 = rest.length % 3 := Nat.add_mod_right _ 3
    rw [b64Encode, htext, hmod]
    refine ⟨_ :: _ :: _ :: _ :: ss, rfl, ?_⟩
    exact (ungroupAll_regroup x y z (ss ++ _)).trans (by rw [hbytes]; rfl)

/-! ## A text that is valid up to its padding -/

/-- A text that is valid up to its padding is regrouped (R111 steps 3 and 4). -/
theorem b64Decode_eq_ok_of_valid {cs : List Byte} (hlen : cs.length % 4 = 0)
    (hvalid : ∀ (q : Nat) (d : Byte), q < cs.length - padCount cs → cs[q]? = some d → b64Val d ≠ none) :
    ∃ ss : List Sextet, cs.take (cs.length - padCount cs) = ss.map b64Char ∧
      b64Decode cs = .ok (decodedBytes (padCount cs) ss) := by
  obtain ⟨ss, hss⟩ := exists_eq_map_b64Char (cs := cs.take (cs.length - padCount cs)) fun c hc => by
    obtain ⟨q, hq, rfl⟩ := List.mem_take_iff_getElem.1 hc
    exact hvalid q _ (by omega) (List.getElem?_eq_getElem _)
  exact ⟨ss, hss, by rw [b64Decode_eq_stripped hlen, hss, b64DecodeStripped_map_b64Char]⟩

/-- The values of the characters of a stripped text are its sextets. -/
theorem stripped_sextets_getElem? {cs : List Byte} {ss : List Sextet} {v : Nat → Sextet} {k q : Nat}
    (hss : cs.take k = ss.map b64Char)
    (hv : ∀ (q : Nat) (d : Byte), q < k → cs[q]? = some d → b64Val d = some (v q)) (hq : q < ss.length) :
    ss[q]? = some (v q) := by
  have hget : (cs.take k)[q]? = some (b64Char ss[q]) := by simp [hss, hq]
  rw [List.getElem?_take, Option.ite_none_right_eq_some] at hget
  obtain ⟨hlt, hchar⟩ := hget
  rw [List.getElem?_eq_getElem hq, ← hv q _ hlt hchar, b64Val_b64Char]

/-- Extended by as many zeros as there is padding, the sextets are listed by a `v` that is zero there (R111 step 3). -/
theorem extended_sextets_getElem? {ss : List Sextet} {v : Nat → Sextet} {p q : Nat}
    (hv : ∀ q, q < ss.length → ss[q]? = some (v q)) (hzero : ∀ q, ss.length ≤ q → v q = 0#6) (hq : q < ss.length + p) :
    (ss ++ List.replicate p 0#6)[q]? = some (v q) := by
  obtain hin | hout := Nat.lt_or_ge q ss.length
  · rw [List.getElem?_append_left hin, hv q hin]
  · rw [List.getElem?_append_right hout, List.getElem?_replicate_of_lt (by omega), hzero q hout]

/-! ## The filler bits of a short group -/

/-- Two valid last characters before the padding decode alike where their sextets give the same bytes. -/
theorem b64Decode_concat_congr {p : Nat} (hp : p ≤ 2) {cs : List Byte} {c c' : Byte} {v v' : Sextet}
    (hc : b64Val c = some v) (hc' : b64Val c' = some v')
    (hbytes : (cs.length + 1 + p) % 4 = 0 →
      ∀ ss : List Sextet, cs = ss.map b64Char → decodedBytes p (ss ++ [v]) = decodedBytes p (ss ++ [v'])) :
    b64Decode (cs ++ [c] ++ List.replicate p padChar) = b64Decode (cs ++ [c'] ++ List.replicate p padChar) := by
  by_cases hlen : (cs.length + 1 + p) % 4 = 0
  · rw [b64Decode_append_padding (by simpa using hlen) (padCount_valid_append hc cs hp),
      b64Decode_append_padding (by simpa using hlen) (padCount_valid_append hc' cs hp),
      b64DecodeStripped_concat_congr hc hc' (hbytes hlen)]
  · rw [b64Decode_badLength (by simpa [-List.append_assoc] using hlen),
      b64Decode_badLength (by simpa [-List.append_assoc] using hlen)]

theorem b64Decode_one_pad_congr (pre : List Byte) (a b : Byte) {c c' : Byte} {v v' : Sextet} (hc : b64Val c = some v)
    (hc' : b64Val c' = some v') (hbits : v.extractLsb' 2 4 = v'.extractLsb' 2 4) :
    b64Decode (pre ++ [a, b, c, padChar]) = b64Decode (pre ++ [a, b, c', padChar]) := by
  have hcongr := b64Decode_concat_congr (p := 1) (cs := pre ++ [a, b]) (by decide) hc hc' fun hlen ss hss => by
    obtain ⟨us, last, rfl, rfl, hlast⟩ := List.map_eq_append_iff.1 hss.symm
    obtain ⟨x, y, rfl⟩ := List.length_eq_two.1 (by simpa using congrArg List.length hlast)
    have hus : us.length % 4 = 0 := by simpa [Nat.add_assoc] using hlen
    rw [List.append_assoc, List.append_assoc]
    exact (decodedBytes_one hus x y v).trans (hbits ▸ (decodedBytes_one hus x y v').symm)
  simpa using hcongr

theorem b64Decode_two_pads_congr (pre : List Byte) (a : Byte) {b b' : Byte} {v v' : Sextet} (hb : b64Val b = some v)
    (hb' : b64Val b' = some v') (hbits : v.extractLsb' 4 2 = v'.extractLsb' 4 2) :
    b64Decode (pre ++ [a, b, padChar, padChar]) = b64Decode (pre ++ [a, b', padChar, padChar]) := by
  have hcongr := b64Decode_concat_congr (p := 2) (cs := pre ++ [a]) (by decide) hb hb' fun hlen ss hss => by
    obtain ⟨us, last, rfl, rfl, hlast⟩ := List.map_eq_append_iff.1 hss.symm
    obtain ⟨x, rfl⟩ := List.length_eq_one_iff.1 (by simpa using congrArg List.length hlast)
    have hus : us.length % 4 = 0 := by simpa [Nat.add_assoc] using hlen
    rw [List.append_assoc, List.append_assoc]
    exact (decodedBytes_two hus x v).trans (hbits ▸ (decodedBytes_two hus x v').symm)
  simpa [List.replicate_succ] using hcongr

/-! ## The obligations -/

/-- Settles O15: the sextets of the encoded text regroup to the bytes and one zero byte for each `'='`, and these are dropped. -/
theorem b64RoundTrip : Obligations.B64RoundTrip := by
  unfold Obligations.B64RoundTrip
  intro xs
  obtain ⟨ss, htext, hbytes⟩ := exists_sextets_of_b64Encode xs
  have hlen := b64Encode_length xs
  rw [htext, List.length_append, List.length_map, List.length_replicate] at hlen
  rw [htext, b64Decode_append_padding (by rw [List.length_map]; omega) (padCount_map_b64Char_append ss (by omega)),
    b64DecodeStripped_map_b64Char, decodedBytes, hbytes, List.rdrop, List.take_left' (by simp)]

/-- Settles O17: the lowest invalid character of the stripped text decides; without one the text is that of its sextets, and these
with zeros behind are the `v` of the statement. -/
theorem b64DecodeFollowsGroups : Obligations.B64DecodeFollowsGroups := by
  unfold Obligations.B64DecodeFollowsGroups
  refine fun cs => ⟨b64Decode_badLength, fun hlen p c hlt hp hc hlow => ?invalid, fun hlen hvalid => ?valid⟩
  case invalid =>
    have hp' : (cs.take (cs.length - padCount cs))[p]? = some c := by rwa [List.getElem?_take_of_lt hlt]
    have herr := b64Sextets_lowest_invalid 0 hp' hc fun q d hq hd =>
      hlow q d hq (by rwa [List.getElem?_take_of_lt (by omega)] at hd)
    rw [b64Decode_eq_stripped hlen, b64DecodeStripped_eq_map, herr, Nat.zero_add]
    rfl
  case valid =>
    obtain ⟨ss, hss, hok⟩ := b64Decode_eq_ok_of_valid hlen hvalid
    have hpad := padCount_le_length cs
    have hsslen : ss.length = cs.length - padCount cs := by simpa using (congrArg List.length hss).symm
    have hsum : ss.length + padCount cs = cs.length := by omega
    refine ⟨_, hok, by rw [decodedBytes_length, hsum], fun v hv hzero g hg => ?_⟩
    obtain ⟨hx, hy, hz⟩ := ungroupAll_getElem?_group (g := g) (ss := ss ++ List.replicate (padCount cs) 0#6)
      (fun q hq => extended_sextets_getElem? (fun _ => stripped_sextets_getElem? hss hv) (hsslen ▸ hzero) (by simpa using hq))
      (by rw [List.length_append, List.length_replicate, hsum]; omega)
    exact ⟨fun h => (decodedBytes_getElem? h).trans hx, fun h => (decodedBytes_getElem? h).trans hy,
      fun h => (decodedBytes_getElem? h).trans hz⟩

/-- Settles O18: the last sextet enters the decoded bytes only by the bits named; where the text before it is invalid or the length
no multiple of 4, both texts have the same error. -/
theorem fillerBitsIgnored : Obligations.FillerBitsIgnored := by
  unfold Obligations.FillerBitsIgnored
  exact ⟨fun pre a b _ _ _ _ => b64Decode_one_pad_congr pre a b, fun pre a _ _ _ _ => b64Decode_two_pads_congr pre a,
    rfl, rfl, rfl, fun x y => ⟨regroup_one_byte_filler x, regroup_two_bytes_filler x y⟩⟩

end Sys2Proof.Machine
end

section
/-! `XorByte` and `xor_combine` (43_xor.md R120, R121, R123): the laws of one byte, and from them those of byte sequences. -/

namespace Sys2Proof.Machine

/-! ## One byte -/

theorem xorByte_getLsbD_iff (x y : Byte) (i : Nat) : (xorByte x y).getLsbD i = true ↔ x.getLsbD i ≠ y.getLsbD i := by
  rw [xorByte, BitVec.getLsbD_xor, Bool.xor_iff_ne]

theorem xorByte_comm (x y : Byte) : xorByte x y = xorByte y x := BitVec.xor_comm x y

@[simp] theorem xorByte_zero (x : Byte) : xorByte x 0x00#8 = x := BitVec.xor_zero

@[simp] theorem xorByte_self (x : Byte) : xorByte x x = 0x00#8 := BitVec.xor_self

@[simp] theorem xorByte_ones (x : Byte) : xorByte x 0xFF#8 = ~~~x := BitVec.xor_allOnes

/-- R121: a second combination with the same byte undoes the first. -/
@[simp] theorem xorByte_cancel_right (x y : Byte) : xorByte (xorByte x y) y = x :=
  calc x ^^^ y ^^^ y
    _ = x ^^^ (y ^^^ y) := BitVec.xor_assoc x y y
    _ = xorByte x 0x00#8 := congrArg (x ^^^ ·) (xorByte_self y)
    _ = x := xorByte_zero x

/-! ## Byte sequences -/

theorem xorCombine_of_length_eq {xs ys : List Byte} (h : xs.length = ys.length) :
    xorCombine xs ys = .ok (List.zipWith xorByte xs ys) := if_pos h

theorem xorCombine_of_length_ne {xs ys : List Byte} (h : xs.length ≠ ys.length) :
    xorCombine xs ys = .error (.lengthMismatch xs.length ys.length) := if_neg h

theorem length_zipWith_xorByte {xs ys : List Byte} (h : xs.length = ys.length) :
    (List.zipWith xorByte xs ys).length = xs.length := by
  rw [List.length_zipWith, h, Nat.min_self]

theorem xorCombine_comm {xs ys : List Byte} (h : xs.length = ys.length) : xorCombine ys xs = xorCombine xs ys := by
  rw [xorCombine_of_length_eq h, xorCombine_of_length_eq h.symm, List.zipWith_comm_of_comm xorByte_comm]

theorem zipWith_xorByte_cancel_right {xs ys : List Byte} (h : xs.length = ys.length) :
    List.zipWith xorByte (List.zipWith xorByte xs ys) ys = xs := by
  induction xs generalizing ys with
  | nil => rfl
  | cons x xs ih =>
    cases ys with
    | nil => cases h
    | cons y ys =>
      have htail : xs.length = ys.length := Nat.succ.inj h
      simp [ih htail]

/-- Settles O10: each law from that of bit vectors; self-inverse by associativity and `x` with `x`. -/
theorem xorByteLaws : Obligations.XorByteLaws := by
  unfold Obligations.XorByteLaws
  exact ⟨fun x y i _ => xorByte_getLsbD_iff x y i, fun x y =>
    ⟨xorByte_comm x y, xorByte_cancel_right x y, xorByte_zero x, xorByte_self x, xorByte_ones x⟩⟩

/-- Settles O19: on equal lengths the result is the bytes combined in place, so each law is that of `XorByte`. -/
theorem xorCombineBytesAndLaws : Obligations.XorCombineBytesAndLaws := by
  unfold Obligations.XorCombineBytesAndLaws
  refine fun xs ys => ⟨xorCombine_of_length_ne, fun hlen => ?equal⟩
  case equal =>
    have hok := xorCombine_of_length_eq hlen
    have hzlen := length_zipWith_xorByte hlen
    refine ⟨_, hok, hzlen, fun i x y hx hy => ?byte, (xorCombine_comm hlen).trans hok, ?inverse⟩
    case byte => exact List.getElem?_zipWith_eq_some.2 ⟨x, y, hx, hy, rfl⟩
    case inverse => rw [xorCombine_of_length_eq (hzlen.trans hlen), zipWith_xorByte_cancel_right hlen]

end Sys2Proof.Machine
end

section
/-! The errors a command raises before it reads a byte: `OddLength`, `BadLength` and `LengthMismatch` are about the lengths alone
(60_exceptions.md R131, R133, R135). -/

namespace Sys2Proof.Machine

/-! ## The end of a command and its result -/

/-- A command whose result is an error, with no byte drawn, ends by raising that error in the state it started in. -/
theorem exec_eq_raise {i : Instr} {s : State} {e : CodecError} (h : resultIn i s = (.error e, s.draws)) :
    exec i s = .next (raise e s) := by
  rw [exec_eq, h]
  rfl

theorem exec_status {i : Instr} {s t : State} (h : exec i s = .next t) : t.status = resStatus (resultIn i s).1 := by
  rw [(exec_next_iff i s t).1 h]

/-- `STATUS` 0x03 names the error `OddLength`. -/
theorem eq_oddLength_of_resStatus {r : Except CodecError (List Byte)} (h : resStatus r = 0x03#8) :
    r = .error .oddLength := by
  cases r with
  | ok out => simp [resStatus] at h
  | error e => cases e <;> simp [resStatus, statusByte_err] at h ⊢

/-- `STATUS` 0x0B names the error `BadLength`. -/
theorem eq_badLength_of_resStatus {r : Except CodecError (List Byte)} (h : resStatus r = 0x0B#8) :
    r = .error .badLength := by
  cases r with
  | ok out => simp [resStatus] at h
  | error e => cases e <;> simp [resStatus, statusByte_err] at h ⊢

/-! ## The length errors, when their condition holds -/

theorem resultIn_hexdec_odd {s : State} (hcap : s.lena ≤ s.capIn) (hodd : s.lena % 2 = 1) :
    resultIn .hexdec s = (.error .oddLength, s.draws) := by
  simp [resultIn, resultOf, hcap, hodd]

theorem resultIn_b64dec_badLength {s : State} (hcap : s.lena ≤ s.capIn) (hbad : s.lena % 4 ≠ 0) :
    resultIn .b64dec s = (.error .badLength, s.draws) := by
  simp [resultIn, resultOf, hcap, hbad]

theorem resultIn_xor_mismatch {s : State} (ha : s.lena ≤ s.capIn) (hb : s.lenb ≤ s.capIn) (hne : s.lena ≠ s.lenb) :
    resultIn .xor s = (.error (.lengthMismatch s.lena s.lenb), s.draws) := by
  simp [resultIn, resultOf, ha, hb, hne]

/-! ## The length errors have no other cause -/

/-- The windows of an input fail for its length only where one character is left over. -/
theorem length_odd_of_hexWindows {pos : Nat} {cs : List Byte} (h : hexWindows pos cs = .error .oddLength) :
    cs.length % 2 = 1 := by
  induction pos, cs using hexWindows.induct with
  | case1 pos => cases h
  | case2 pos c => rfl
  | case3 pos c0 c1 rest h0 => rw [hexWindows_first_invalid h0] at h; cases h
  | case4 pos c0 c1 rest hi h0 h1 => rw [hexWindows_second_invalid h0 h1] at h; cases h
  | case5 pos c0 c1 rest hi h0 lo h1 e he ih =>
    simp only [hexWindows, h0, h1, he] at h
    cases h
    have hrest := ih he
    simp only [List.length_cons]
    omega
  | case6 pos c0 c1 rest hi h0 lo h1 out ho ih => simp only [hexWindows, h0, h1, ho] at h; cases h

theorem hexDecode_eq_oddLength_iff (cs : List Byte) : hexDecode cs = .error .oddLength ↔ cs.length % 2 = 1 := by
  refine ⟨fun h => ?_, hexDecode_odd⟩
  by_contra hodd
  have heven : cs.length % 2 = 0 := by omega
  rw [hexDecode_even heven] at h
  exact hodd (length_odd_of_hexWindows h)

/-- The characters of a base64 input are never the cause of `BadLength`. -/
theorem b64Sextets_ne_badLength (pos : Nat) (cs : List Byte) : b64Sextets pos cs ≠ .error .badLength := by
  intro h
  induction cs generalizing pos with
  | nil => cases h
  | cons c rest ih =>
    cases hc : b64Val c with
    | none => simp only [b64Sextets, hc] at h; cases h
    | some v =>
      cases hr : b64Sextets (pos + 1) rest with
      | error e => simp only [b64Sextets, hc, hr] at h; cases h; exact ih _ hr
      | ok vs => simp only [b64Sextets, hc, hr] at h; cases h

theorem b64DecodeStripped_ne_badLength (p : Nat) (cs : List Byte) : b64DecodeStripped p cs ≠ .error .badLength := by
  unfold b64DecodeStripped
  split
  next e he =>
    rintro ⟨⟩
    exact b64Sextets_ne_badLength 0 cs he
  next => nofun

/-- Only `HEXDEC` raises `OddLength`, and on an even length `hex_decode` of what it reads does not. -/
theorem hexdec_odd_of_oddLength {i : Instr} {s : State} (h : (resultIn i s).1 = .error .oddLength) :
    i = .hexdec ∧ s.lena % 2 = 1 := by
  cases resultIn_error h with
  | hexOddLength =>
    refine ⟨rfl, ?_⟩
    unfold resultIn resultOf at h
    split at h
    · dsimp only at h
      split at h
      · assumption
      · rwa [hexDecode_eq_oddLength_iff, drawRange_length] at h
    · cases h

/-- Only `B64DEC` raises `BadLength`, and on a multiple of 4 decoding what it reads does not. -/
theorem b64dec_length_of_badLength {i : Instr} {s : State} (h : (resultIn i s).1 = .error .badLength) :
    i = .b64dec ∧ s.lena % 4 ≠ 0 := by
  cases resultIn_error h with
  | b64BadLength =>
    refine ⟨rfl, ?_⟩
    unfold resultIn resultOf at h
    split at h
    · dsimp only at h
      split at h
      · exact absurd h (b64DecodeStripped_ne_badLength _ _)
      · assumption
    · cases h

/-! ## The obligations -/

/-- Settles O22: the odd length is the result before a byte is read; `STATUS` 0x03 names `OddLength`, which has no other cause. -/
theorem hexdecOddLengthEnds : Obligations.HexdecOddLengthEnds := by
  unfold Obligations.HexdecOddLengthEnds
  refine ⟨fun s hcap hodd => exec_eq_raise (resultIn_hexdec_odd hcap hodd), fun i s t h hst => ?_⟩
  rw [exec_status h] at hst
  exact hexdec_odd_of_oddLength (eq_oddLength_of_resStatus hst)

/-- Settles O27: the bad length is the result before a byte is read; `STATUS` 0x0B names `BadLength`, which has no other cause. -/
theorem b64decBadLengthEnds : Obligations.B64decBadLengthEnds := by
  unfold Obligations.B64decBadLengthEnds
  refine ⟨fun s hcap hbad => exec_eq_raise (resultIn_b64dec_badLength hcap hbad), fun i s t h hst => ?_⟩
  rw [exec_status h] at hst
  exact b64dec_length_of_badLength (eq_badLength_of_resStatus hst)

/-- Settles O30: the mismatch is the result before a byte is read, and what `raise` writes of it has neither length. -/
theorem xorLengthMismatchEnds : Obligations.XorLengthMismatchEnds := by
  unfold Obligations.XorLengthMismatchEnds
  intro s ha hb hne
  rw [exec_eq_raise (resultIn_xor_mismatch ha hb hne), raise_eq, statusByte_err]
  rfl

end Sys2Proof.Machine
end

section
/-! The block after `RESET`: every register zero, no buffer byte specified (70_reset_and_hazards.md R155 to R157). -/

namespace Sys2Proof.Machine

/-- `RESET` is always taken, and resets the block once the action has left the host's list (R155). -/
theorem step_reset {s : State} {rest : List HostAction} (h : s.pending = .reset :: rest) :
    step s = .next (resetBlock (s.setPending rest)) := step_cons h

/-- Settles O42: the step is `resetBlock`, whose registers are zero and whose buffers are the empty memory; `State.reset` is built with
the same zeros. -/
theorem resetClearsBlock : Obligations.ResetClearsBlock := by
  unfold Obligations.ResetClearsBlock
  refine ⟨?afterReset, rfl, rfl, rfl, rfl, rfl, rfl, rfl⟩
  case afterReset =>
    intro s rest hp
    exact ⟨resetBlock (s.setPending rest), step_reset hp, rfl, rfl, rfl, rfl, rfl, rfl, rfl,
      memRead_nil, memRead_nil, memRead_nil⟩

end Sys2Proof.Machine
end

section
/-! What a command ends with: on written operands a function of their bytes, on any others the same of bytes that agree with the
written ones, and on a length that does not fit `IllegalCmd` (30_encoding.md R57, R58). -/

namespace Sys2Proof.Machine

/-! ## Written operands -/

/-- The function of each command (40_hex.md R71, R73; 41_base64_encode.md R94; 42_base64_decode.md R111; 43_xor.md R123). -/
def codecResult : Instr → List Byte → List Byte → Except CodecError (List Byte)
  | .hexdec, xs, _ => hexDecode xs
  | .hexenc, xs, _ => .ok (hexEncode xs)
  | .b64enc, xs, _ => .ok (b64Encode xs)
  | .b64dec, xs, _ => b64Decode xs
  | .xor, xs, ys => xorCombine xs ys

/-- `xs` and `ys` are the written operands of a command, of lengths the block admits. -/
structure HasOperands (i : Instr) (s : State) (xs ys : List Byte) : Prop where
  cap : s.lena ≤ s.capIn
  length_a : xs.length = s.lena
  holds_a : Holds s.srca xs
  b : i = .xor → s.lenb ≤ s.capIn ∧ ys.length = s.lenb ∧ Holds s.srcb ys

theorem drawRange_of_holds {m : Memory} {xs : List Byte} {n : Nat} (hm : Holds m xs) (hn : xs.length = n) (d : Nat) :
    drawRange m 0 n d = (xs, d) := by
  rw [← hn]
  exact drawRange_written xs (by simpa [Holds] using hm)

theorem Holds.take {m : Memory} {xs : List Byte} (h : Holds m xs) (n : Nat) : Holds m (xs.take n) := by
  intro j hj
  rw [List.length_take] at hj
  rw [List.getElem?_take_of_lt (by omega), h j (by omega)]

/-- On written operands a command ends with its function of them and draws no free byte. -/
theorem resultIn_of_operands {i : Instr} {s : State} {xs ys : List Byte} (h : HasOperands i s xs ys) :
    resultIn i s = (codecResult i xs ys, s.draws) := by
  obtain ⟨hcap, hlen, hm, hb⟩ := h
  have hread : ∀ d, drawRange s.srca 0 s.lena d = (xs, d) := drawRange_of_holds hm hlen
  cases i with
  | hexenc | b64enc => simp [resultIn, resultOf, codecResult, hcap, hread]
  | hexdec =>
    by_cases hodd : s.lena % 2 = 1
    · simp [resultIn_hexdec_odd hcap hodd, codecResult, hexDecode_odd (hlen ▸ hodd)]
    · simp [resultIn, resultOf, codecResult, hcap, hodd, hread]
  | b64dec =>
    by_cases hmod : s.lena % 4 = 0
    · have hpad : drawPadCount s.srca s.lena s.draws = (padCount xs, s.draws) := hlen ▸ drawPadCount_written _ hm
      have hstripped := drawRange_of_holds (hm.take (s.lena - padCount xs)) (n := s.lena - padCount xs) (by simp [hlen])
      simp [resultIn, resultOf, codecResult, hcap, hmod, hpad, hstripped, b64Decode_eq_stripped, hlen]
    · simp [resultIn_b64dec_badLength hcap hmod, codecResult, b64Decode_badLength (hlen ▸ hmod)]
  | xor =>
    obtain ⟨hcapb, hlenb, hmb⟩ := hb rfl
    by_cases heq : s.lena = s.lenb
    · have hreadb := drawRange_of_holds hmb (hlenb.trans heq.symm)
      simp [resultIn, resultOf, codecResult, hcap, ← heq, hread, hreadb]
    · have hne : xs.length ≠ ys.length := by omega
      simp [resultIn_xor_mismatch hcap hcapb heq, codecResult, xorCombine_of_length_ne hne, hlen, hlenb]

theorem exec_of_operands {i : Instr} {s : State} {xs ys : List Byte} (h : HasOperands i s xs ys) :
    exec i s = .next (finish (codecResult i xs ys) s) := by
  rw [exec_eq, resultIn_of_operands h]

/-! ## Lengths that do not fit -/

/-- The length admission fails (R57). -/
def Oversize (i : Instr) (s : State) : Prop := s.capIn < s.lena ∨ (i = .xor ∧ s.capIn < s.lenb)

theorem not_oversize_iff {i : Instr} {s : State} :
    ¬ Oversize i s ↔ s.lena ≤ s.capIn ∧ (i = .xor → s.lenb ≤ s.capIn) := by
  simp [Oversize]

theorem resultIn_oversize {i : Instr} {s : State} (h : Oversize i s) : resultIn i s = (.error .illegalCmd, s.draws) :=
  if_neg fun hadm => not_oversize_iff.2 hadm h

/-- Operands whose bytes are all written either do not fit or are given as sequences. -/
theorem OperandsWritten.cases {i : Instr} {s : State} (h : OperandsWritten i s) :
    Oversize i s ∨ ∃ xs ys, HasOperands i s xs ys := by
  obtain ⟨ha, hb⟩ := h
  refine or_iff_not_imp_left.2 fun hfit => ?_
  obtain ⟨hcap, hcapb⟩ := not_oversize_iff.1 hfit
  obtain ⟨xs, hxlen, hxs⟩ := ha.holds
  by_cases hxor : i = .xor
  · obtain ⟨ys, hylen, hys⟩ := (hb hxor).holds
    exact ⟨xs, ys, hcap, hxlen, hxs, fun _ => ⟨hcapb hxor, hylen, hys⟩⟩
  · exact ⟨xs, [], hcap, hxlen, hxs, fun h => absurd h hxor⟩

theorem draws_of_operandsWritten {i : Instr} {s : State} (h : OperandsWritten i s) : (resultIn i s).2 = s.draws := by
  obtain hover | ⟨xs, ys, hops⟩ := h.cases
  · rw [resultIn_oversize hover]
  · rw [resultIn_of_operands hops]

/-! ## Any operands -/

/-- `xs` is what reading `n` bytes of the memory `m` can give: the written ones are as written. -/
def Reads (m : Memory) (n : Nat) (xs : List Byte) : Prop := xs.length = n ∧ Agrees m xs

theorem drawByte_of_memRead {m : Memory} {i : Nat} {v : Byte} (h : memRead m i = some v) (d : Nat) :
    drawByte m i d = (v, d) := by
  rw [drawByte, h]

theorem drawRange_getElem? {m : Memory} {start count i : Nat} {v : Byte} (d : Nat) (hi : i < count)
    (h : memRead m (start + i) = some v) : (drawRange m start count d).1[i]? = some v := by
  induction count generalizing start i d with
  | zero => omega
  | succ count ih =>
    cases i with
    | zero => simp [drawRange, drawByte_of_memRead (by simpa using h)]
    | succ i =>
      rw [drawRange, List.getElem?_cons_succ]
      exact ih _ (by omega) (by rwa [Nat.add_assoc, Nat.add_comm 1 i])

theorem reads_drawRange (m : Memory) (n d : Nat) : Reads m n (drawRange m 0 n d).1 :=
  ⟨drawRange_length m 0 n d, fun i v hi h =>
    drawRange_getElem? d (by rwa [drawRange_length] at hi) (by rwa [Nat.zero_add])⟩

theorem drawPadCount_le (m : Memory) (n d : Nat) : (drawPadCount m n d).1 ≤ 2 ∧ (drawPadCount m n d).1 ≤ n := by
  have h := (readPadCount_spec n { State.reset with srca := m, draws := d }).2
  rwa [readPadCount_eq] at h

/-- Everything a command can end with: an error its lengths alone decide, or its function of bytes it read. -/
inductive Yields (s : State) : Instr → Except CodecError (List Byte) → Prop where
  | illegalCmd (i : Instr) (h : Oversize i s) : Yields s i (.error .illegalCmd)
  | hexenc (xs : List Byte) (hcap : s.lena ≤ s.capIn) (hr : Reads s.srca s.lena xs) : Yields s .hexenc (.ok (hexEncode xs))
  | b64enc (xs : List Byte) (hcap : s.lena ≤ s.capIn) (hr : Reads s.srca s.lena xs) : Yields s .b64enc (.ok (b64Encode xs))
  | oddLength (h : s.lena % 2 = 1) : Yields s .hexdec (.error .oddLength)
  | hexdec (xs : List Byte) (hcap : s.lena ≤ s.capIn) (hr : Reads s.srca s.lena xs) : Yields s .hexdec (hexDecode xs)
  | badLength (h : s.lena % 4 ≠ 0) : Yields s .b64dec (.error .badLength)
  | b64dec (p : Nat) (xs : List Byte) (hcap : s.lena ≤ s.capIn) (hp : p ≤ 2) (hpn : p ≤ s.lena)
      (hr : Reads s.srca (s.lena - p) xs) : Yields s .b64dec (b64DecodeStripped p xs)
  | lengthMismatch (h : s.lena ≠ s.lenb) : Yields s .xor (.error (.lengthMismatch s.lena s.lenb))
  | xor (xs ys : List Byte) (hcap : s.lena ≤ s.capIn) (heq : s.lena = s.lenb) (hx : Reads s.srca s.lena xs)
      (hy : Reads s.srcb s.lenb ys) : Yields s .xor (.ok (List.zipWith xorByte xs ys))

theorem yields_resultIn (i : Instr) (s : State) : Yields s i (resultIn i s).1 := by
  by_cases hover : Oversize i s
  · rw [resultIn_oversize hover]
    exact .illegalCmd i hover
  · obtain ⟨hcap, hcapb⟩ := not_oversize_iff.1 hover
    unfold resultIn resultOf
    rw [if_pos ⟨hcap, hcapb⟩]
    cases i with
    | hexenc => exact .hexenc _ hcap (reads_drawRange _ _ _)
    | b64enc => exact .b64enc _ hcap (reads_drawRange _ _ _)
    | hexdec =>
      dsimp only
      split
      · exact .oddLength ‹_›
      · exact .hexdec _ hcap (reads_drawRange _ _ _)
    | b64dec =>
      dsimp only
      split
      · obtain ⟨hp, hpn⟩ := drawPadCount_le s.srca s.lena s.draws
        exact .b64dec _ _ hcap hp hpn (reads_drawRange _ _ _)
      · exact .badLength ‹_›
    | xor =>
      dsimp only
      split
      next heq =>
        have hx := reads_drawRange s.srca s.lena s.draws
        have hy := reads_drawRange s.srcb s.lenb (drawRange s.srca 0 s.lena s.draws).2
        rw [xorCombine_of_length_eq (by rw [hx.1, hy.1, heq])]
        exact .xor _ _ hcap heq hx hy
      · exact .lengthMismatch ‹_›

/-! ## The invalid character that a decode reports -/

/-- `c`, at `p`, is the character of lowest index that has no value. -/
def LowestInvalid {α : Type} (val : Byte → Option α) (cs : List Byte) (p : Nat) (c : Byte) : Prop :=
  cs[p]? = some c ∧ val c = none ∧ ∀ (q : Nat) (d : Byte), q < p → cs[q]? = some d → val d ≠ none

theorem valid_or_exists_lowestInvalid {α : Type} (val : Byte → Option α) (cs : List Byte) :
    (∀ c ∈ cs, val c ≠ none) ∨ ∃ p c, LowestInvalid val cs p c := by
  induction cs with
  | nil => exact .inl nofun
  | cons d cs ih =>
    by_cases hd : val d = none
    · exact .inr ⟨0, d, rfl, hd, fun q _ hq => absurd hq (Nat.not_lt_zero q)⟩
    · obtain hvalid | ⟨p, c, hp, hc, hlow⟩ := ih
      · exact .inl (List.forall_mem_cons.2 ⟨hd, hvalid⟩)
      · refine .inr ⟨p + 1, c, hp, hc, fun q e hq he => ?_⟩
        cases q with
        | zero => cases he; exact hd
        | succ q => exact hlow q e (by omega) he

/-- `hex_decode` reports an invalid character only where it is the one of lowest index. -/
theorem lowestInvalid_of_hexDecode {cs : List Byte} {p : Nat} {c : Byte} (h : hexDecode cs = .error (.invalidDigit p c)) :
    LowestInvalid hexVal cs p c := by
  obtain hodd | heven := (Nat.mod_two_eq_zero_or_one cs.length).symm
  · rw [hexDecode_odd hodd] at h; cases h
  · rw [hexDecode_even heven] at h
    obtain hvalid | ⟨p', c', hlow⟩ := valid_or_exists_lowestInvalid hexVal cs
    · obtain ⟨out, hout⟩ := exists_hexWindows_eq_ok 0 heven hvalid
      rw [hout] at h; cases h
    · rw [hexWindows_lowest_invalid 0 heven hlow.1 hlow.2.1 hlow.2.2, Nat.zero_add] at h
      cases h
      exact hlow

theorem lowestInvalid_of_b64DecodeStripped {n p : Nat} {cs : List Byte} {c : Byte}
    (h : b64DecodeStripped n cs = .error (.invalidDigit p c)) : LowestInvalid b64Val cs p c := by
  obtain hvalid | ⟨p', c', hlow⟩ := valid_or_exists_lowestInvalid b64Val cs
  · obtain ⟨ss, rfl⟩ := exists_eq_map_b64Char hvalid
    rw [b64DecodeStripped_map_b64Char] at h; cases h
  · rw [b64DecodeStripped_eq_map, b64Sextets_lowest_invalid 0 hlow.1 hlow.2.1 hlow.2.2, Nat.zero_add] at h
    cases h
    exact hlow

/-- The same on the whole text: only its characters before the padding are looked at. -/
theorem lowestInvalid_of_b64Decode {cs : List Byte} {p : Nat} {c : Byte} (h : b64Decode cs = .error (.invalidDigit p c)) :
    LowestInvalid b64Val cs p c := by
  by_cases hmod : cs.length % 4 = 0
  · rw [b64Decode_eq_stripped hmod] at h
    obtain ⟨hp, hc, hlow⟩ := lowestInvalid_of_b64DecodeStripped h
    rw [List.getElem?_take, Option.ite_none_right_eq_some] at hp
    obtain ⟨hlt, hp⟩ := hp
    exact ⟨hp, hc, fun q d hq hd => hlow q d hq (by rwa [List.getElem?_take_of_lt (by omega)])⟩
  · rw [b64Decode_badLength hmod] at h; cases h

end Sys2Proof.Machine
end

section
/-! The command word from the command and back (30_encoding.md R50, R51). -/

namespace Sys2Proof

@[simp] theorem decode_encode (i : Instr) : decode (encode i) = .ok i := by
  cases i <;> rfl

theorem append_op_of_decodeOp {op : BitVec 3} {i : Instr} (h : decodeOp op = .ok i) : (0#5) ++ op = encode i := by
  have hall : ∀ op : BitVec 3, (decodeOp op).toOption.all (fun i => (0#5) ++ op = encode i) = true := by decide
  simpa [h, Except.toOption] using hall op

/-- A word is its two fields, and the decoder accepts it only with `rsv` zero. -/
theorem encode_of_decode {w : Byte} {i : Instr} (h : decode w = .ok i) : encode i = w := by
  unfold decode at h
  split at h
  next hrsv =>
    have hw : rsvField w ++ opField w = w := BitVec.extractLsb'_append_extractLsb'
    rw [← append_op_of_decodeOp h, ← hrsv, hw]
  next => cases h

/-- Settles O2: the five words by evaluation; a word that decodes is put together from its fields again. -/
theorem decodeEncodeRoundTrip : Obligations.DecodeEncodeRoundTrip := by
  unfold Obligations.DecodeEncodeRoundTrip
  exact ⟨fun i _ => decode_encode i, fun _ _ => encode_of_decode⟩

end Sys2Proof
end

section
/-! What the host's actions leave unchanged (20_memory.md R42, section 7; 10_state.md R13, R17 to R24). -/

namespace Sys2Proof.Machine

/-- Ending a command leaves everything but the outcome. -/
theorem finish_frame (r : Except CodecError (List Byte)) (s : State) :
    (finish r s).cmd = s.cmd ∧ (finish r s).srca = s.srca ∧ (finish r s).srcb = s.srcb ∧ (finish r s).lena = s.lena ∧
      (finish r s).lenb = s.lenb ∧ (finish r s).capIn = s.capIn ∧ (finish r s).pending = s.pending ∧
      (finish r s).replies = s.replies ∧ (finish r s).draws = s.draws := by
  rw [finish_eq]
  exact ⟨rfl, rfl, rfl, rfl, rfl, rfl, rfl, rfl, rfl⟩

/-- A write to `CMD` that the block takes stores the word and ends with some result, a reserved word as a command does. -/
theorem act_wrreg_cmd_ends {v : Nat} {s t : State} (h : act (.wrreg 0 v) s = .next t) :
    ∃ r d, t = finish r { s with cmd := BitVec.ofNat 8 v, draws := d } := by
  rw [act_wrreg_cmd] at h
  split at h
  · rw [writeCmd_eq] at h
    injection h with h
    subst h
    cases decode (BitVec.ofNat 8 v) with
    | ok i => exact ⟨_, _, rfl⟩
    | error e => exact ⟨.error .illegalCmd, s.draws, rfl⟩
  · cases h

/-- No action touches the list of pending actions or the capacity, and each returns at most one value. -/
theorem act_frame {a : HostAction} {s t : State} (h : act a s = .next t) :
    t.pending = s.pending ∧ t.capIn = s.capIn ∧ ∃ r, t.replies = s.replies ++ r ∧ r.length ≤ 1 := by
  have hnone : ∀ u : State, u.replies = s.replies → ∃ r, u.replies = s.replies ++ r ∧ r.length ≤ 1 :=
    fun u hu => ⟨[], by simp [hu], by simp⟩
  obtain ⟨-, rfl⟩ | ⟨buf, i, v, -, -, rfl⟩ | ⟨-, r, d, rfl⟩ | ⟨v, rfl, -⟩ | ⟨buf, v, -, -, rfl⟩ | ⟨r, v, -, -, rfl⟩ :=
    act_cases h
  · exact ⟨rfl, rfl, hnone _ rfl⟩
  · cases buf <;> exact ⟨rfl, rfl, hnone _ rfl⟩
  · exact ⟨rfl, rfl, [r], rfl, by simp⟩
  · obtain ⟨r, d, rfl⟩ := act_wrreg_cmd_ends h
    obtain ⟨-, -, -, -, -, hcap, hpend, hrep, -⟩ := finish_frame r { s with cmd := BitVec.ofNat 8 v, draws := d }
    exact ⟨hpend, hcap, hnone _ hrep⟩
  · cases buf <;> exact ⟨rfl, rfl, hnone _ rfl⟩
  · exact ⟨rfl, rfl, hnone _ rfl⟩

/-- Only a write to `CMD` or `RESET` changes `CMD` or the outcome. -/
theorem act_keeps_outcome {a : HostAction} {s t : State} (h : act a s = .next t) (hc : ∀ v, a ≠ .wrreg 0 v)
    (hr : a ≠ .reset) :
    t.cmd = s.cmd ∧ t.status = s.status ∧ t.leno = s.leno ∧ t.errpos = s.errpos ∧ t.errval = s.errval ∧
      t.dst = s.dst := by
  obtain ⟨ha, -⟩ | ⟨buf, i, v, -, -, rfl⟩ | ⟨-, r, d, rfl⟩ | ⟨v, ha, -⟩ | ⟨buf, v, -, -, rfl⟩ | ⟨r, v, -, -, rfl⟩ :=
    act_cases h
  · exact absurd ha hr
  · cases buf <;> exact ⟨rfl, rfl, rfl, rfl, rfl, rfl⟩
  · exact ⟨rfl, rfl, rfl, rfl, rfl, rfl⟩
  · exact absurd ha (hc v)
  · cases buf <;> exact ⟨rfl, rfl, rfl, rfl, rfl, rfl⟩
  · exact ⟨rfl, rfl, rfl, rfl, rfl, rfl⟩

/-- An operand changes only by the host's own write to it, or by `RESET`. -/
theorem act_keeps_operands {a : HostAction} {s t : State} (h : act a s = .next t) (hr : a ≠ .reset) :
    ((∀ i v, a ≠ .wra i v) → t.srca = s.srca) ∧ ((∀ i v, a ≠ .wrb i v) → t.srcb = s.srcb) ∧
    ((∀ v, a ≠ .wrreg 2 v) → t.lena = s.lena) ∧ ((∀ v, a ≠ .wrreg 3 v) → t.lenb = s.lenb) := by
  obtain ⟨ha, -⟩ | ⟨buf, i, v, rfl, -, rfl⟩ | ⟨-, r, d, rfl⟩ | ⟨v, rfl, -⟩ | ⟨buf, v, rfl, -, rfl⟩ | ⟨r, v, -, -, rfl⟩ :=
    act_cases h
  · exact absurd ha hr
  · cases buf
    · exact ⟨fun hw => absurd rfl (hw i v), fun _ => rfl, fun _ => rfl, fun _ => rfl⟩
    · exact ⟨fun _ => rfl, fun hw => absurd rfl (hw i v), fun _ => rfl, fun _ => rfl⟩
  · exact ⟨fun _ => rfl, fun _ => rfl, fun _ => rfl, fun _ => rfl⟩
  · obtain ⟨r, d, rfl⟩ := act_wrreg_cmd_ends h
    obtain ⟨-, ha, hb, hla, hlb, -⟩ := finish_frame r { s with cmd := BitVec.ofNat 8 v, draws := d }
    exact ⟨fun _ => ha, fun _ => hb, fun _ => hla, fun _ => hlb⟩
  · cases buf
    · exact ⟨fun _ => rfl, fun _ => rfl, fun hw => absurd rfl (hw v), fun _ => rfl⟩
    · exact ⟨fun _ => rfl, fun _ => rfl, fun _ => rfl, fun hw => absurd rfl (hw v)⟩
  · exact ⟨fun _ => rfl, fun _ => rfl, fun _ => rfl, fun _ => rfl⟩

/-! ## The obligations -/

/-- Settles O50: the step takes the action from the list, and the action touches neither the list nor the capacity. -/
theorem stepTakesOneAction : Obligations.StepTakesOneAction := by
  unfold Obligations.StepTakesOneAction
  refine ⟨fun s t h => ?_, fun s => step_idle⟩
  cases hp : s.pending with
  | nil =>
    rw [step_idle hp] at h
    cases h
    exact ⟨hp, rfl, [], by simp, by simp⟩
  | cons a rest =>
    rw [step_cons hp] at h
    exact act_frame h

/-- Settles O51: each of the other actions leaves the outcome. -/
theorem outcomeChangesOnlyByCommandOrReset : Obligations.OutcomeChangesOnlyByCommandOrReset := by
  unfold Obligations.OutcomeChangesOnlyByCommandOrReset
  intro s t a rest hp h hc hr
  rw [step_cons hp] at h
  exact act_keeps_outcome (s := s.setPending rest) h hc hr

/-- Settles O52: commands and reads included, every action but the operand's own write leaves it. -/
theorem operandsChangeOnlyByHostWrites : Obligations.OperandsChangeOnlyByHostWrites := by
  unfold Obligations.OperandsChangeOnlyByHostWrites
  intro s t a rest hp h hr
  rw [step_cons hp] at h
  exact act_keeps_operands (s := s.setPending rest) h hr

end Sys2Proof.Machine
end

section
/-! The invariants of the block: every output and every reported index fits, so every step keeps `Inv`; and what `HEXENC` and `B64ENC`
leave in `DST` is text (00_scope.md R9, 10_state.md section 5, 95_test_vectors.md section 6). -/

namespace Sys2Proof.Machine

/-! ## The outcome registers after a result -/

/-- The legal values of `STATUS` but 0 (10_state.md R14). -/
theorem resStatus_mem (r : Except CodecError (List Byte)) :
    resStatus r ∈ [0x01#8, 0x03#8, 0x05#8, 0x07#8, 0x09#8, 0x0B#8] := by
  cases r with
  | ok out => simp [resStatus]
  | error e => cases e <;> simp [resStatus, statusByte_err]

theorem resStatus_ne_zero (r : Except CodecError (List Byte)) : resStatus r ≠ 0x00#8 := by
  intro h
  have hmem := resStatus_mem r
  rw [h] at hmem
  exact absurd hmem (by decide)

/-- Only `InvalidDigit` has a detail. -/
theorem resDetail_eq_zero {r : Except CodecError (List Byte)} (h : resStatus r ≠ 0x05#8) :
    resPos r = 0 ∧ resVal r = 0x00#8 := by
  cases r with
  | ok out => exact ⟨rfl, rfl⟩
  | error e =>
    cases e with
    | invalidDigit pos val => exact absurd (statusByte_err _) h
    | oddLength | lengthMismatch | illegalCmd | badLength => exact ⟨rfl, rfl⟩

/-! ## The bounds on a command's outcome -/

/-- `LEN_W` bits hold every value up to `2 * CAP_IN`. -/
theorem lt_two_pow_lenW {cap n : Nat} (h : n ≤ 2 * cap) : n < 2 ^ Config.lenW cap :=
  Nat.lt_of_le_of_lt h Nat.lt_log2_self

theorem lenW_le_iff {cap : Nat} (w : Nat) (hcap : 0 < cap) : Config.lenW cap ≤ w ↔ 2 * cap < 2 ^ w := by
  rw [Config.lenW, Nat.succ_le_iff, Nat.log2_lt (by omega)]

/-- The output of a decode: none on an error, else the bytes. -/
theorem resOut_hexDecode_length (cs : List Byte) : (resOut (hexDecode cs)).length ≤ cs.length := by
  cases h : hexDecode cs with
  | ok out =>
    have hlen := hexDecode_length h
    dsimp only [resOut]
    omega
  | error e => exact Nat.zero_le _

theorem resOut_b64DecodeStripped_length (p : Nat) (cs : List Byte) :
    (resOut (b64DecodeStripped p cs)).length ≤ cs.length + p := by
  cases h : b64Sextets 0 cs with
  | ok ss =>
    have hlen : ss.length = cs.length := by rw [b64Sextets_eq_ok_iff.1 h, List.length_map]
    rw [b64DecodeStripped_eq_map, h]
    show (decodedBytes p ss).length ≤ _
    rw [decodedBytes_length]
    omega
  | error e =>
    rw [b64DecodeStripped_eq_map, h]
    exact Nat.zero_le _

/-- The output of every command fits `DST`: `B64ENC`, the longest, has whole groups of four, which fit from `CAP_IN = 2` on. -/
theorem Yields.length_resOut_le {s : State} {i : Instr} {r : Except CodecError (List Byte)} (h : Yields s i r)
    (hcap2 : 2 ≤ s.capIn) : (resOut r).length ≤ Config.capOut s.capIn := by
  unfold Config.capOut
  cases h with
  | illegalCmd | oddLength | badLength | lengthMismatch => exact Nat.zero_le _
  | hexenc xs hcap hr =>
    have hlen := hr.1
    rw [resOut, hexEncode_length]
    omega
  | b64enc xs hcap hr =>
    have hlen := hr.1
    rw [resOut, b64Encode_length]
    omega
  | hexdec xs hcap hr =>
    have hle := resOut_hexDecode_length xs
    have hlen := hr.1
    omega
  | b64dec p xs hcap hp hpn hr =>
    have hle := resOut_b64DecodeStripped_length p xs
    have hlen := hr.1
    omega
  | xor xs ys hcap heq hx hy =>
    have hlen := hx.1
    rw [resOut, List.length_zipWith]
    omega

theorem resPos_lt {r : Except CodecError (List Byte)} {n : Nat} (hn : 0 < n)
    (h : ∀ p c, r = .error (.invalidDigit p c) → p < n) : resPos r < n := by
  cases r with
  | ok out => exact hn
  | error e =>
    cases e with
    | invalidDigit p c => exact h p c rfl
    | oddLength | lengthMismatch | illegalCmd | badLength => exact hn

theorem LowestInvalid.lt_length {α : Type} {val : Byte → Option α} {cs : List Byte} {p : Nat} {c : Byte}
    (h : LowestInvalid val cs p c) : p < cs.length := by
  obtain ⟨hp, -⟩ := h
  exact (List.getElem?_eq_some_iff.1 hp).1

/-- A reported index is an index of `SRCA` (60_exceptions.md R132). -/
theorem Yields.resPos_lt_capIn {s : State} {i : Instr} {r : Except CodecError (List Byte)} (h : Yields s i r)
    (hcap2 : 2 ≤ s.capIn) : resPos r < s.capIn := by
  refine resPos_lt (by omega) fun p c hr => ?_
  cases h with
  | illegalCmd | oddLength | badLength | lengthMismatch | hexenc | b64enc | xor => cases hr
  | hexdec xs hcap hreads =>
    have hlt := (lowestInvalid_of_hexDecode hr).lt_length
    rw [hreads.1] at hlt
    omega
  | b64dec n xs hcap hn hnlen hreads =>
    have hlt := (lowestInvalid_of_b64DecodeStripped hr).lt_length
    rw [hreads.1] at hlt
    omega

/-! ## The state invariant -/

theorem Inv.setPending {s : State} (h : Inv s) (as : List HostAction) : Inv (s.setPending as) := { h with }

theorem Inv.replied {s : State} (h : Inv s) (rs : List Reply) (d : Nat) : Inv { s with replies := rs, draws := d } :=
  { h with }

/-- A reset block meets the invariant; what the capacity must be is the spec's, not the reset's. -/
theorem Inv.resetBlock {s : State} (hcap : 2 ≤ s.capIn) : Inv (resetBlock s) where
  cap := hcap
  lena := Nat.two_pow_pos _
  lenb := Nat.two_pow_pos _
  leno := Nat.zero_le _
  errpos := Nat.lt_of_lt_of_le Nat.two_pos hcap
  status := List.mem_cons_self
  srca := ⟨rfl, fun i _ => memRead_nil i⟩
  srcb := ⟨rfl, fun i _ => memRead_nil i⟩
  dst := rfl
  noOutput _ := rfl
  noDetail _ := ⟨rfl, rfl⟩
  fresh _ := rfl

/-- A write below the capacity keeps a source buffer canonical and inside its capacity. -/
theorem memWrite_keeps_bounded {m : Memory} {cap i : Nat} (v : Byte) (hi : i < cap)
    (h : Memory.wf m = true ∧ ∀ j, cap ≤ j → memRead m j = none) :
    Memory.wf (memWrite m i v) = true ∧ ∀ j, cap ≤ j → memRead (memWrite m i v) j = none := by
  obtain ⟨hwf, hout⟩ := h
  refine ⟨memWrite_wf i v hwf, fun j hj => ?_⟩
  rw [memRead_memWrite_other m v (by omega), hout j hj]

theorem Inv.writeSrc {s : State} (h : Inv s) (buf : Buf) {i : Nat} (v : Byte) (hi : i < s.capIn) :
    Inv (s.setSrc (memWrite (s.src buf) i v) buf) := by
  cases buf with
  | a => exact { h with srca := memWrite_keeps_bounded v hi h.srca }
  | b => exact { h with srcb := memWrite_keeps_bounded v hi h.srcb }

theorem Inv.setLen {s : State} (h : Inv s) (buf : Buf) {n : Nat} (hn : n < 2 ^ Config.lenW s.capIn) :
    Inv (s.setLen n buf) := by
  cases buf with
  | a => exact { h with lena := hn }
  | b => exact { h with lenb := hn }

/-- The end of a command keeps the invariant when its output fits `DST` and its index `SRCA`. -/
theorem Inv.finish {s : State} (h : Inv s) (w : Byte) (d : Nat) {r : Except CodecError (List Byte)}
    (hlen : (resOut r).length ≤ Config.capOut s.capIn) (hpos : resPos r < s.capIn) :
    Inv (finish r { s with cmd := w, draws := d }) := by
  rw [finish_eq]
  exact { h with
    leno := hlen
    errpos := hpos
    status := List.mem_cons_of_mem _ (resStatus_mem r)
    dst := (memOf_indices 0 _).trans (List.range_eq_range' ..).symm
    noOutput := fun hst => by rw [resOut_eq_nil hst]; rfl
    noDetail := resDetail_eq_zero
    fresh := fun hst => absurd hst (resStatus_ne_zero r) }

theorem Inv.act {a : HostAction} {s t : State} (h : Inv s) (ha : act a s = .next t) : Inv t := by
  obtain ⟨-, rfl⟩ | ⟨buf, i, v, -, hi, rfl⟩ | ⟨-, r, d, rfl⟩ | ⟨v, -, -, hcmd⟩ | ⟨buf, v, -, hv, rfl⟩ | ⟨r, v, -, -, rfl⟩ :=
    act_cases ha
  · exact Inv.resetBlock h.cap
  · exact h.writeSrc buf v hi
  · exact h.replied _ d
  · obtain ⟨i, -, rfl⟩ | ⟨e, -, rfl⟩ := hcmd
    · have hres := yields_resultIn i s
      exact h.finish _ _ (hres.length_resOut_le h.cap) (hres.resPos_lt_capIn h.cap)
    · exact h.finish (r := .error .illegalCmd) _ s.draws (Nat.zero_le _) (Nat.lt_of_lt_of_le Nat.two_pos h.cap)
  · exact h.setLen buf hv
  · exact h

/-! ## The output text -/

theorem OutputText.of_status_ne {s : State} (h : s.status ≠ 0x01#8) : OutputText s :=
  ⟨fun hst => absurd hst h, fun hst => absurd hst h⟩

/-- The text invariant is about `CMD` and the outcome alone. -/
theorem OutputText.of_same_outcome {s t : State} (h : OutputText s) (hcmd : t.cmd = s.cmd) (hst : t.status = s.status)
    (hlen : t.leno = s.leno) (hdst : t.dst = s.dst) : OutputText t := by
  constructor
  · rw [hcmd, hst, hlen, hdst]; exact h.hex
  · rw [hcmd, hst, hlen, hdst]; exact h.b64

theorem hexenc_output {s : State} {out : List Byte} (h : Yields s .hexenc (.ok out)) : ∃ xs, out = hexEncode xs := by
  cases h with
  | hexenc xs => exact ⟨xs, rfl⟩

theorem b64enc_output {s : State} {out : List Byte} (h : Yields s .b64enc (.ok out)) : ∃ xs, out = b64Encode xs := by
  cases h with
  | b64enc xs => exact ⟨xs, rfl⟩

theorem exists_ok_of_resStatus {r : Except CodecError (List Byte)} (h : resStatus r = 0x01#8) : ∃ out, r = .ok out := by
  cases r with
  | ok out => exact ⟨out, rfl⟩
  | error e => cases e <;> simp [resStatus, statusByte_err] at h

/-- A command leaves text in `DST` where its word is that of `HEXENC` or `B64ENC`. -/
theorem OutputText.finish {s : State} {i : Instr} {r : Except CodecError (List Byte)} (hr : Yields s i r) (d : Nat) :
    OutputText (finish r { s with cmd := encode i, draws := d }) := by
  have hinj : ∀ j, encode i = encode j → i = j := fun j h => by simpa using congrArg decode h
  rw [finish_eq]
  constructor
  · intro hst hcmd
    obtain rfl := hinj _ hcmd
    obtain ⟨out, rfl⟩ := exists_ok_of_resStatus hst
    obtain ⟨xs, rfl⟩ := hexenc_output hr
    refine ⟨by simp [resOut], fun j v hv => ?_⟩
    exact exists_hexChar_of_mem_hexEncode (List.mem_of_getElem? ((memRead_memOf_zero j _).symm.trans hv))
  · intro hst hcmd
    obtain rfl := hinj _ hcmd
    obtain ⟨out, rfl⟩ := exists_ok_of_resStatus hst
    obtain ⟨xs, rfl⟩ := b64enc_output hr
    refine ⟨by simp [resOut], fun j v hv => ?_⟩
    exact b64Encode_getElem?_cases ((memRead_memOf_zero j _).symm.trans hv)

theorem OutputText.act {a : HostAction} {s t : State} (h : OutputText s) (ha : act a s = .next t) : OutputText t := by
  obtain ⟨-, rfl⟩ | ⟨buf, i, v, -, -, rfl⟩ | ⟨-, r, d, rfl⟩ | ⟨v, -, -, hcmd⟩ | ⟨buf, v, -, -, rfl⟩ | ⟨r, v, -, -, rfl⟩ :=
    act_cases ha
  · exact .of_status_ne (by decide : (0x00#8 : Byte) ≠ 0x01#8)
  · cases buf <;> exact h.of_same_outcome rfl rfl rfl rfl
  · exact h.of_same_outcome rfl rfl rfl rfl
  · obtain ⟨i, hi, rfl⟩ | ⟨e, -, rfl⟩ := hcmd
    · rw [← encode_of_decode hi]
      exact .finish (yields_resultIn i s) _
    · exact .of_status_ne (by decide : (0x09#8 : Byte) ≠ 0x01#8)
  · cases buf <;> exact h.of_same_outcome rfl rfl rfl rfl
  · exact h

/-- What every action keeps, whatever is pending, every step keeps. -/
theorem step_keeps {P : State → Prop} (hpend : ∀ s as, P s → P (s.setPending as))
    (hact : ∀ a s t, P s → act a s = .next t → P t) (s t : State) (h : P s) (hst : step s = .next t) : P t := by
  cases hp : s.pending with
  | nil =>
    rw [step_idle hp] at hst
    cases hst
    exact h
  | cons a rest =>
    rw [step_cons hp] at hst
    exact hact a _ t (hpend s rest h) hst

/-! ## The obligations -/

/-- Settles O56: each kind of action keeps the invariant, a command because its output and its index fit. -/
theorem stepKeepsInvariant : Obligations.StepKeepsInvariant := by
  unfold Obligations.StepKeepsInvariant
  exact step_keeps (fun _ as h => h.setPending as) fun _ _ _ => Inv.act

/-- Settles O57: only a command with the word of `HEXENC` or `B64ENC` can matter, and its output is that of its function. -/
theorem stepKeepsOutputText : Obligations.StepKeepsOutputText := by
  unfold Obligations.StepKeepsOutputText
  exact step_keeps (fun _ _ h => h.of_same_outcome rfl rfl rfl rfl) fun _ _ _ => OutputText.act

/-- Settles O38: `log2` gives the least width, and the bounds are those of the results. -/
theorem outputFitsDestination : Obligations.OutputFitsDestination := by
  unfold Obligations.OutputFitsDestination
  refine ⟨fun cap w hcap => (lenW_le_iff w (by omega)).symm, fun i s t hcap h => ?_⟩
  obtain rfl := (exec_next_iff i s t).1 h
  have hres := yields_resultIn i s
  have hlen := hres.length_resOut_le hcap
  have hpos := hres.resPos_lt_capIn hcap
  exact ⟨hlen, lt_two_pow_lenW hlen, lt_two_pow_lenW (by dsimp only; omega)⟩

/-- Settles O55: every register is zero and every buffer empty. -/
theorem resetMeetsInvariants : Obligations.ResetMeetsInvariants := by
  unfold Obligations.ResetMeetsInvariants
  have hreset : ∀ cap, 2 ≤ cap → Inv (State.resetWith cap) ∧ OutputText (State.resetWith cap) := fun cap hcap =>
    ⟨Inv.resetBlock (s := State.resetWith cap) hcap, .of_status_ne (by decide : (0x00#8 : Byte) ≠ 0x01#8)⟩
  exact ⟨hreset, hreset _ (by decide)⟩

end Sys2Proof.Machine
end

section
/-! The commands: with what each completes, on written operands and on any others, and what its outcome depends on (40_hex.md section 3,
41_base64_encode.md section 3, 42_base64_decode.md section 3, 43_xor.md section 3, 60_exceptions.md sections 1 to 3). -/

namespace Sys2Proof.Machine

/-! ## The two ends of a command on written operands -/

theorem HasOperands.of_srca {i : Instr} {s : State} {xs : List Byte} (hi : i ≠ .xor) (hcap : s.lena ≤ s.capIn)
    (hlen : xs.length = s.lena) (hm : Holds s.srca xs) : HasOperands i s xs [] :=
  ⟨hcap, hlen, hm, fun h => absurd h hi⟩

theorem exec_completes {i : Instr} {s : State} {xs ys out : List Byte} {n : Nat} (h : HasOperands i s xs ys)
    (hr : codecResult i xs ys = .ok out) (hn : out.length = n) :
    exec i s = .next { s with status := 0x01#8, leno := n, errpos := 0, errval := 0x00#8, dst := memOf 0 out } := by
  subst hn
  rw [exec_of_operands h, hr, finish_eq]
  rfl

theorem exec_invalidDigit {i : Instr} {s : State} {xs ys : List Byte} {p : Nat} {c : Byte} (h : HasOperands i s xs ys)
    (hr : codecResult i xs ys = .error (.invalidDigit p c)) :
    exec i s = .next { s with status := 0x05#8, leno := 0, errpos := p, errval := c, dst := [] } := by
  rw [exec_of_operands h, hr, finish_eq, resStatus, statusByte_err]
  rfl

/-! ## Each command where it completes -/

/-- Settles O20: `hex_encode` has no error, and two characters a byte. -/
theorem hexencCompletes : Obligations.HexencCompletes := by
  unfold Obligations.HexencCompletes
  intro s xs hcap hlen hm
  exact exec_completes (.of_srca (by decide) hcap hlen hm) rfl (by rw [hexEncode_length, hlen])

/-- Settles O21: on valid windows `hex_decode` succeeds, with half as many bytes. -/
theorem hexdecCompletes : Obligations.HexdecCompletes := by
  unfold Obligations.HexdecCompletes
  intro s cs hcap hlen hm heven hvalid
  obtain ⟨-, -, hok⟩ := hexDecodeFollowsWindows cs
  obtain ⟨out, hout, houtlen, -⟩ := hok (hlen ▸ heven) hvalid
  exact ⟨out, hout, exec_completes (.of_srca (by decide) hcap hlen hm) hout (by rw [houtlen, hlen])⟩

/-- Settles O23: `hex_decode` reports the lowest invalid character. -/
theorem hexdecInvalidDigitEnds : Obligations.HexdecInvalidDigitEnds := by
  unfold Obligations.HexdecInvalidDigitEnds
  intro s cs p c hcap hlen hm heven hp hc hlow
  obtain ⟨-, hinvalid, -⟩ := hexDecodeFollowsWindows cs
  exact exec_invalidDigit (.of_srca (by decide) hcap hlen hm) (hinvalid (hlen ▸ heven) p c hp hc hlow)

/-- Settles O25: `base64_encode` has no error, and four characters a group. -/
theorem b64encCompletes : Obligations.B64encCompletes := by
  unfold Obligations.B64encCompletes
  intro s xs hcap hlen hm
  exact exec_completes (.of_srca (by decide) hcap hlen hm) rfl (by rw [b64Encode_length, hlen])

/-- Settles O26: with valid characters before the padding `base64_decode` succeeds. -/
theorem b64decCompletes : Obligations.B64decCompletes := by
  unfold Obligations.B64decCompletes
  intro s cs hcap hlen hm hmod hvalid
  obtain ⟨-, -, hok⟩ := b64DecodeFollowsGroups cs
  obtain ⟨out, hout, houtlen, -⟩ := hok (hlen ▸ hmod) hvalid
  exact ⟨out, hout, exec_completes (.of_srca (by decide) hcap hlen hm) hout (by rw [houtlen, hlen])⟩

/-- Settles O28: `base64_decode` reports the lowest invalid character before the padding. -/
theorem b64decInvalidDigitEnds : Obligations.B64decInvalidDigitEnds := by
  unfold Obligations.B64decInvalidDigitEnds
  intro s cs p c hcap hlen hm hmod hlt hp hc hlow
  obtain ⟨-, hinvalid, -⟩ := b64DecodeFollowsGroups cs
  exact exec_invalidDigit (.of_srca (by decide) hcap hlen hm) (hinvalid (hlen ▸ hmod) p c hlt hp hc hlow)

/-- Settles O29: on equal lengths `xor_combine` succeeds, with a byte for each pair. -/
theorem xorCompletes : Obligations.XorCompletes := by
  unfold Obligations.XorCompletes
  intro s xs ys hcap heq hx hy hmx hmy
  have hlen : xs.length = ys.length := by omega
  exact exec_completes ⟨hcap, hx, hmx, fun _ => ⟨by omega, hy, hmy⟩⟩ (xorCombine_of_length_eq hlen)
    ((length_zipWith_xorByte hlen).trans hx)

/-! ## Lengths that do not fit, and bytes that are not written -/

theorem resultIn_ignores_b {i : Instr} (hi : i ≠ .xor) (s : State) (n : Nat) (m : Memory) :
    resultIn i { s with lenb := n, srcb := m } = resultIn i s := by
  cases i with
  | xor => exact absurd rfl hi
  | hexdec | hexenc | b64enc | b64dec => simp [resultIn, resultOf]

/-- Settles O5: the admission decides before a byte is read; only the result of `XOR` is a function of `LENB` and `SRCB`. -/
theorem oversizeLengthEndsIllegalCmd : Obligations.OversizeLengthEndsIllegalCmd := by
  unfold Obligations.OversizeLengthEndsIllegalCmd
  refine ⟨fun s i h => exec_eq_raise (resultIn_oversize h), fun s t i n m hi h => ?_⟩
  rw [exec_eq] at h ⊢
  cases h
  rw [resultIn_ignores_b hi, finish_eq, finish_eq]

theorem exec_yields (i : Instr) (s : State) :
    ∃ r d, Yields s i r ∧ exec i s = .next (finish r { s with draws := d }) :=
  ⟨_, _, yields_resultIn i s, exec_eq i s⟩

/-- Settles O31: with its lengths admitted a command ends with its function of the bytes it read. -/
theorem commandsRunOnUnwrittenOperands : Obligations.CommandsRunOnUnwrittenOperands := by
  unfold Obligations.CommandsRunOnUnwrittenOperands
  intro s hcap
  have hfit : ∀ i, (i = .xor → s.lenb ≤ s.capIn) → ¬ Oversize i s := fun i hb => not_oversize_iff.2 ⟨hcap, hb⟩
  refine ⟨?hexenc, ?b64enc, fun heven => ?hexdec, fun hmod => ?b64dec, fun heq => ?xor⟩
  case hexenc =>
    obtain ⟨_, d, hr, h⟩ := exec_yields .hexenc s
    cases hr with
    | illegalCmd _ hover => exact absurd hover (hfit _ nofun)
    | hexenc xs _ hx => exact ⟨xs, d, hx.1, hx.2, h⟩
  case b64enc =>
    obtain ⟨_, d, hr, h⟩ := exec_yields .b64enc s
    cases hr with
    | illegalCmd _ hover => exact absurd hover (hfit _ nofun)
    | b64enc xs _ hx => exact ⟨xs, d, hx.1, hx.2, h⟩
  case hexdec =>
    obtain ⟨_, d, hr, h⟩ := exec_yields .hexdec s
    cases hr with
    | illegalCmd _ hover => exact absurd hover (hfit _ nofun)
    | oddLength hodd => omega
    | hexdec xs _ hx => exact ⟨xs, d, hx.1, hx.2, h⟩
  case b64dec =>
    obtain ⟨_, d, hr, h⟩ := exec_yields .b64dec s
    cases hr with
    | illegalCmd _ hover => exact absurd hover (hfit _ nofun)
    | badLength hbad => exact absurd hmod hbad
    | b64dec p xs _ hp hpn hx => exact ⟨p, xs, d, hp, hpn, hx.1, hx.2, h⟩
  case xor =>
    obtain ⟨_, d, hr, h⟩ := exec_yields .xor s
    cases hr with
    | illegalCmd _ hover => exact absurd hover (hfit _ fun _ => heq ▸ hcap)
    | lengthMismatch hne => exact absurd heq.symm hne
    | xor xs ys _ _ hx hy => exact ⟨xs, ys, d, hx.1, hy.1.trans heq, hx.2, hy.2, h⟩

/-! ## What an error leaves -/

/-- Settles O34: only a result `OK` has output, and only `InvalidDigit` a detail. -/
theorem errorOutcomeLeavesNoOutput : Obligations.ErrorOutcomeLeavesNoOutput := by
  unfold Obligations.ErrorOutcomeLeavesNoOutput
  intro i s t h
  obtain rfl := (exec_next_iff i s t).1 h
  refine ⟨fun hst => ?_, resDetail_eq_zero⟩
  dsimp only
  rw [resOut_eq_nil hst]
  exact ⟨rfl, memRead_nil⟩

/-- `STATUS` 0x05 names the error `InvalidDigit`, with the detail in `ERRPOS` and `ERRVAL`. -/
theorem eq_invalidDigit_of_resStatus {r : Except CodecError (List Byte)} (h : resStatus r = 0x05#8) :
    r = .error (.invalidDigit (resPos r) (resVal r)) := by
  cases r with
  | ok out => simp [resStatus] at h
  | error e =>
    cases e with
    | invalidDigit p c => rfl
    | oddLength | lengthMismatch | illegalCmd | badLength => simp [resStatus, statusByte_err] at h

/-- The lowest invalid character of an operand is that of the buffer that holds it. -/
theorem LowestInvalid.in_memory {α : Type} {val : Byte → Option α} {xs : List Byte} {p : Nat} {c : Byte} {m : Memory}
    (h : LowestInvalid val xs p c) (hm : Holds m xs) :
    memRead m p = some c ∧ val c = none ∧ ∀ q d, q < p → memRead m q = some d → val d ≠ none := by
  have hlt := h.lt_length
  obtain ⟨hp, hc, hlow⟩ := h
  exact ⟨(hm p hlt).trans hp, hc, fun q d hq hd => hlow q d hq ((hm q (by omega)).symm.trans hd)⟩

/-- Which decode reports an invalid character, and which one. -/
theorem codecResult_invalidDigit {i : Instr} {xs ys : List Byte} {p : Nat} {c : Byte}
    (h : codecResult i xs ys = .error (.invalidDigit p c)) :
    (i = .hexdec ∧ LowestInvalid hexVal xs p c) ∨ (i = .b64dec ∧ LowestInvalid b64Val xs p c) := by
  cases i with
  | hexdec => exact .inl ⟨rfl, lowestInvalid_of_hexDecode h⟩
  | b64dec => exact .inr ⟨rfl, lowestInvalid_of_b64Decode h⟩
  | hexenc | b64enc => cases h
  | xor => cases xorCombine_error h

/-- Settles O35: what is reported is the lowest invalid character of the operand, which the buffer holds. -/
theorem invalidDigitDetail : Obligations.InvalidDigitDetail := by
  unfold Obligations.InvalidDigitDetail
  intro i s t hw h hst
  obtain rfl := (exec_next_iff i s t).1 h
  have hres := eq_invalidDigit_of_resStatus hst
  obtain hover | ⟨xs, ys, hops⟩ := hw.cases
  · rw [resultIn_oversize hover] at hres
    cases hres
  · dsimp only
    rw [resultIn_of_operands hops] at hres ⊢
    obtain ⟨rfl, hlow⟩ | ⟨rfl, hlow⟩ := codecResult_invalidDigit hres
    · obtain ⟨hp, hc, hbelow⟩ := hlow.in_memory hops.holds_a
      exact ⟨hops.length_a ▸ hlow.lt_length, hp, .inl ⟨rfl, hc, hbelow⟩⟩
    · obtain ⟨hp, hc, hbelow⟩ := hlow.in_memory hops.holds_a
      exact ⟨hops.length_a ▸ hlow.lt_length, hp, .inr ⟨rfl, hc, hbelow⟩⟩

/-! ## What an outcome depends on -/

theorem Holds.congr {m m' : Memory} {xs : List Byte} (h : Holds m xs)
    (heq : ∀ j, j < xs.length → memRead m j = memRead m' j) : Holds m' xs :=
  fun j hj => (heq j hj).symm.trans (h j hj)

/-- Settles O36: the other state's operands are the same sequences, or do not fit either. -/
theorem outcomeDependsOnOperandsOnly : Obligations.OutcomeDependsOnOperandsOnly := by
  unfold Obligations.OutcomeDependsOnOperandsOnly
  intro i s s' t t' hcap hlena hw ha hb h h'
  have hres : (resultIn i s).1 = (resultIn i s').1 := by
    obtain hover | ⟨xs, ys, hops⟩ := hw.cases
    · have hover' : Oversize i s' := by
        obtain hover | ⟨hi, hover⟩ := hover
        · exact .inl (by omega)
        · obtain ⟨hlenb, -⟩ := hb hi
          exact .inr ⟨hi, by omega⟩
      rw [resultIn_oversize hover, resultIn_oversize hover']
    · have hops' : HasOperands i s' xs ys :=
        { cap := by rw [← hlena, ← hcap]; exact hops.cap
          length_a := hops.length_a.trans hlena
          holds_a := hops.holds_a.congr fun j hj => ha j (hops.length_a ▸ hj)
          b := fun hi => by
            obtain ⟨hlenb, hsrcb⟩ := hb hi
            obtain ⟨hcapb, hylen, hys⟩ := hops.b hi
            exact ⟨by omega, hylen.trans hlenb, hys.congr fun j hj => hsrcb j (hylen ▸ hj)⟩ }
      rw [resultIn_of_operands hops, resultIn_of_operands hops']
  obtain rfl := (exec_next_iff i s t).1 h
  obtain rfl := (exec_next_iff i s' t').1 h'
  dsimp only
  rw [hres]
  exact ⟨rfl, rfl, rfl, rfl, rfl⟩

theorem exec_of_draws {i : Instr} {s : State} (h : (resultIn i s).2 = s.draws) :
    exec i s = .next (finish (resultIn i s).1 s) := by
  rw [exec_eq, h]

/-- The end of a command changes nothing its result depends on. -/
theorem resultIn_finish (i : Instr) (r : Except CodecError (List Byte)) (s : State) :
    resultIn i (finish r s) = resultIn i s := by
  rw [finish_eq]
  rfl

theorem finish_finish (r : Except CodecError (List Byte)) (s : State) : finish r (finish r s) = finish r s := by
  cases r <;> rfl

/-- Settles O37: a command on written operands keeps all its result depends on, the count of free bytes included. -/
theorem repeatedCommandSameOutcome : Obligations.RepeatedCommandSameOutcome := by
  unfold Obligations.RepeatedCommandSameOutcome
  intro i s t hw h
  have hdraws := draws_of_operandsWritten hw
  rw [exec_of_draws hdraws] at h
  cases h
  obtain ⟨-, -, -, -, -, -, -, -, hkept⟩ := finish_frame (resultIn i s).1 s
  rw [exec_of_draws (by rw [resultIn_finish, hdraws, hkept]), resultIn_finish, finish_finish]

/-! ## Round trips through the block -/

/-- Where one command undoes the function of another, it does so in the block with the output moved to `SRCA` (95_test_vectors.md S1,
S2). -/
theorem exec_undoes {i j : Instr} {s t : State} {xs ys zs : List Byte} {m : Memory} (h : HasOperands i s xs ys)
    (hj : j = .xor → i = .xor) (hr : codecResult i xs ys = .ok zs) (hfit : zs.length ≤ s.capIn)
    (hback : codecResult j zs ys = .ok xs) (hexec : exec i s = .next t)
    (hm : ∀ k, k < t.leno → memRead m k = memRead t.dst k) :
    ∃ u, exec j { t with srca := m, lena := t.leno } = .next u ∧
      u.status = 0x01#8 ∧ u.leno = s.lena ∧ ∀ k, memRead u.dst k = xs[k]? := by
  rw [exec_completes h hr rfl] at hexec
  cases hexec
  have hops : HasOperands j { s with
      status := 0x01#8, leno := zs.length, errpos := 0, errval := 0x00#8, dst := memOf 0 zs, srca := m, lena := zs.length }
      zs ys :=
    { cap := hfit
      length_a := rfl
      holds_a := fun k hk => (hm k hk).trans (memRead_memOf_zero k zs)
      b := fun hjx => h.b (hj hjx) }
  exact ⟨_, exec_completes hops hback h.length_a, rfl, rfl, fun k => memRead_memOf_zero k xs⟩

/-- Settles O39 with the hex round trip of O12. -/
theorem hexRoundTripThroughBlock : Obligations.HexRoundTripThroughBlock := by
  unfold Obligations.HexRoundTripThroughBlock
  intro s t xs m hlen hx hcap hexec hm
  obtain ⟨hround, -⟩ := hexRoundTrip
  exact exec_undoes (.of_srca (by decide) (by omega) hlen hx) nofun rfl (by rw [hexEncode_length]; omega) (hround xs) hexec hm

/-- Settles O40 with the base64 round trip of O15. -/
theorem b64RoundTripThroughBlock : Obligations.B64RoundTripThroughBlock := by
  unfold Obligations.B64RoundTripThroughBlock
  intro s t xs m hlen hx hcap hfit hexec hm
  exact exec_undoes (.of_srca (by decide) hcap hlen hx) nofun rfl (by rw [b64Encode_length]; omega) (b64RoundTrip xs) hexec hm

/-- Settles O41 with the self-inverse law of O19. -/
theorem xorTwiceRestoresFirstOperand : Obligations.XorTwiceRestoresFirstOperand := by
  unfold Obligations.XorTwiceRestoresFirstOperand
  intro s t xs ys m hx hy heq hmx hmy hcap hexec hm
  obtain ⟨-, hlaws⟩ := xorCombineBytesAndLaws xs ys
  obtain ⟨zs, hzs, hzlen, -, -, hback⟩ := hlaws (by omega)
  exact exec_undoes ⟨hcap, hx, hmx, fun _ => ⟨by omega, hy, hmy⟩⟩ (fun _ => rfl) hzs (by omega) hback hexec hm

end Sys2Proof.Machine
end

section
/-! What each host action does where the block takes it, and which actions it takes (20_memory.md R31 to R35, 70_reset_and_hazards.md
sections 1 and 3, 93_implementation_defined.md U5). -/

namespace Sys2Proof.Machine

/-! ## One rule per action -/

/-- `RDA` or `RDB`. -/
def bufRead : Buf → Nat → HostAction
  | .a, i => .rda i
  | .b, i => .rdb i

section Rules

variable {s : State} {buf : Buf} {i r n : Nat}

theorem act_bufWrite (h : i < s.capIn) (v : Byte) :
    act (bufWrite buf i v) s = .next (s.setSrc (memWrite (s.src buf) i v) buf) := by
  cases buf <;> exact if_pos h

theorem act_bufRead (h : i < s.capIn) : act (bufRead buf i) s = .next (replyByte (memRead (s.src buf) i) s) := by
  cases buf <;> exact if_pos h

theorem act_rdo (h : i < Config.capOut s.capIn) : act (.rdo i) s = .next (replyByte (outputByte i s) s) := if_pos h

theorem act_wrreg_len (h : n < 2 ^ Config.lenW s.capIn) : act (.wrreg (lenReg buf) n) s = .next (s.setLen n buf) := by
  cases buf <;> exact if_pos h

/-- A write to a read-only register changes nothing. -/
theorem act_wrreg_readOnly (hr : r = 1 ∨ r = 4 ∨ r = 5 ∨ r = 6) (h : n < regValues s.capIn r) :
    act (.wrreg r n) s = .next s := by
  obtain rfl | rfl | rfl | rfl := hr <;> exact if_pos h

theorem act_rdreg {v : Reply} (h : readReg s r = some v) : act (.rdreg r) s = .next (s.reply v) := by
  rw [act, actRdreg, h]

theorem exists_readReg (s : State) (h : r < 7) : ∃ v, readReg s r = some v := by
  match r with
  | 0 | 1 | 2 | 3 | 4 | 5 | 6 => exact ⟨_, rfl⟩
  | n + 7 => omega

theorem replyByte_some (v : Byte) (s : State) : replyByte (some v) s = s.reply (.byte v) := rfl

end Rules

/-! ## The bytes of the output -/

theorem outputByte_of_ok {s : State} {i : Nat} (hst : s.status = 0x01#8) (hi : i < s.leno) :
    outputByte i s = memRead s.dst i := by
  simp [outputByte, hst, hi]

theorem outputByte_eq_none {s : State} {i : Nat} (h : s.status ≠ 0x01#8 ∨ s.leno ≤ i) : outputByte i s = none := by
  rw [outputByte, statusByte_ok, if_neg]
  rintro ⟨hst, hi⟩
  obtain hne | hle := h
  · exact hne hst
  · omega

theorem exists_memRead_of_mem_indices {m : Memory} {i : Nat} (h : i ∈ m.map Prod.fst) : ∃ v, memRead m i = some v := by
  induction m with
  | nil => cases h
  | cons c rest ih =>
    obtain ⟨j, w⟩ := c
    rw [memRead_cons]
    by_cases hji : j = i
    · exact ⟨w, if_pos hji⟩
    · rw [if_neg hji]
      exact ih ((List.mem_cons.1 h).resolve_left (Ne.symm hji))

/-- Below `LENO` the host sees the bytes of `DST`, all of them specified. -/
theorem Inv.outputByte_below {s : State} (h : Inv s) {i : Nat} (hi : i < s.leno) :
    outputByte i s = memRead s.dst i ∧ ∃ v, memRead s.dst i = some v := by
  have hst : s.status = 0x01#8 := by
    by_contra hne
    have hzero := h.noOutput hne
    omega
  exact ⟨outputByte_of_ok hst hi, exists_memRead_of_mem_indices (by rw [h.dst]; exact List.mem_range.2 hi)⟩

/-! ## A write to `CMD` -/

theorem writeCmd_of_decode {w : Byte} {i : Instr} (h : decode w = .ok i) (s : State) :
    writeCmd w s = exec i (s.setCmd w) := by
  rw [writeCmd, h]

theorem tableWord_toNat (w : Byte) : tableWord 8 w.toNat = w := by
  rw [tableWord, Nat.mod_eq_of_lt w.isLt, BitVec.ofNat_toNat, BitVec.setWidth_eq]

/-! ## Which actions the block takes -/

/-- A guarded action is taken exactly where its guard holds. -/
theorem taken_or_refused (p : Prop) [Decidable p] (t : State) (r : Refusal) :
    (decide p = true ∧ ∃ u, (if p then .next t else .refused r : Host.Outcome State Fault Refusal) = .next u) ∨
    (decide p = false ∧ ∃ q, (if p then .next t else .refused r : Host.Outcome State Fault Refusal) = .refused q) := by
  by_cases h : p
  · exact .inl ⟨decide_eq_true h, t, if_pos h⟩
  · exact .inr ⟨decide_eq_false h, r, if_neg h⟩

/-- An action is taken where it is admitted and refused where it is not; no action faults. -/
theorem act_admitted_or_refused (a : HostAction) (s : State) :
    (a.wf s.capIn = true ∧ ∃ t, act a s = .next t) ∨ (a.wf s.capIn = false ∧ ∃ r, act a s = .refused r) := by
  cases a with
  | reset => exact .inl ⟨rfl, _, rfl⟩
  | wra i v | wrb i v | rda i | rdb i | rdo i => exact taken_or_refused _ _ _
  | wrreg r v =>
    match r with
    | 0 =>
      rw [act_wrreg_cmd, writeCmd_eq]
      exact taken_or_refused _ _ _
    | 1 | 2 | 3 | 4 | 5 | 6 => exact taken_or_refused _ _ _
    | n + 7 => exact .inr ⟨decide_eq_false (Nat.not_lt_zero v), _, rfl⟩
  | rdreg r =>
    by_cases h : r < 7
    · obtain ⟨v, hv⟩ := exists_readReg s h
      exact .inl ⟨decide_eq_true h, _, act_rdreg hv⟩
    · obtain ⟨n, rfl⟩ := Nat.exists_eq_add_of_le' (Nat.not_lt.1 h)
      exact .inr ⟨decide_eq_false h, _, rfl⟩

/-- A careful host's action is taken without a free byte: what it reads, and what its command reads, holds a value. -/
theorem act_careful {a : HostAction} {s : State} (hinv : Inv s) (h : Careful a s) :
    ∃ t, act a s = .next t ∧ t.draws = s.draws := by
  obtain ⟨hwf, hc⟩ := h
  cases a with
  | reset => exact ⟨_, rfl, rfl⟩
  | wra i v => exact ⟨_, act_bufWrite (buf := .a) (of_decide_eq_true hwf) v, rfl⟩
  | wrb i v => exact ⟨_, act_bufWrite (buf := .b) (of_decide_eq_true hwf) v, rfl⟩
  | rda i =>
    obtain ⟨v, hv⟩ := Option.ne_none_iff_exists'.1 hc
    exact ⟨_, act_bufRead (buf := .a) (of_decide_eq_true hwf), by rw [State.src_a, hv]; rfl⟩
  | rdb i =>
    obtain ⟨v, hv⟩ := Option.ne_none_iff_exists'.1 hc
    exact ⟨_, act_bufRead (buf := .b) (of_decide_eq_true hwf), by rw [State.src_b, hv]; rfl⟩
  | rdo i =>
    obtain ⟨-, hi⟩ := hc
    obtain ⟨hout, v, hv⟩ := hinv.outputByte_below hi
    exact ⟨_, act_rdo (of_decide_eq_true hwf), by rw [hout, hv]; rfl⟩
  | rdreg r =>
    obtain ⟨v, hv⟩ := exists_readReg s (of_decide_eq_true hwf)
    exact ⟨_, act_rdreg hv, rfl⟩
  | wrreg r v =>
    obtain ⟨-, t, ht⟩ | ⟨hnot, -⟩ := act_admitted_or_refused (.wrreg r v) s
    · refine ⟨t, ht, ?_⟩
      obtain ⟨ha, -⟩ | ⟨buf, _, _, ha, -⟩ | ⟨ha, -⟩ | ⟨_, ha, -, hcmd⟩ | ⟨buf, _, -, -, rfl⟩ | ⟨_, _, -, -, rfl⟩ :=
        act_cases ht
      · cases ha
      · cases buf <;> cases ha
      · cases ha
      · cases ha
        obtain ⟨i, hi, rfl⟩ | ⟨e, -, rfl⟩ := hcmd
        · rw [finish_eq]
          exact draws_of_operandsWritten (hc i hi)
        · rfl
      · cases buf <;> rfl
      · rfl
    · exact absurd hwf (by simp [hnot])

/-! ## The obligations -/

/-- Settles O3: the port of `CMD` admits the word, and the write stores it and is the command. -/
theorem stepRunsDecodedCommand : Obligations.StepRunsDecodedCommand := by
  unfold Obligations.StepRunsDecodedCommand
  refine ⟨fun s rest v i hp hv hi _ => ?_, fun s i => ?_⟩
  · rw [step_cons hp, act_wrreg_cmd, if_pos (show v < 2 ^ 8 from hv), writeCmd_of_decode hi]
    rfl
  · rw [State.withFetchWord, tableWord_toNat, step_cons (s := presentWord (encode i) s) rfl, act_wrreg_word,
      writeCmd_of_decode (decode_encode i)]
    rfl

/-- Settles O44: below the capacity the write is taken, and a read after it is one of that byte or as before. -/
theorem bufferWriteChangesOneByte : Obligations.BufferWriteChangesOneByte := by
  unfold Obligations.BufferWriteChangesOneByte
  intro s rest i v hi
  have hact := fun buf => act_bufWrite (s := s.setPending rest) (buf := buf) hi v
  exact ⟨fun hp => ⟨memWrite s.srca i v, (step_cons hp).trans (hact .a), fun j => memRead_memWrite _ i j v⟩,
    fun hp => ⟨memWrite s.srcb i v, (step_cons hp).trans (hact .b), fun j => memRead_memWrite _ i j v⟩⟩

/-- A read of a byte returns its value, or some value where it has none. -/
theorem step_replyByte {s : State} {a : HostAction} {rest : List HostAction} {b : Option Byte} (hp : s.pending = a :: rest)
    (h : act a (s.setPending rest) = .next (replyByte b (s.setPending rest))) :
    (∀ v, b = some v → step s = .next { s with pending := rest, replies := s.replies ++ [.byte v] }) ∧
    (b = none → ∃ v,
      step s = .next { s with pending := rest, replies := s.replies ++ [.byte v], draws := s.draws + 1 }) := by
  rw [step_cons hp, h]
  refine ⟨?_, ?_⟩
  · rintro v rfl
    rfl
  · rintro rfl
    exact ⟨_, rfl⟩

/-- Settles O45: below the capacity the read is taken, and returns what the buffer has at the index. -/
theorem bufferReadReturnsLastWritten : Obligations.BufferReadReturnsLastWritten := by
  unfold Obligations.BufferReadReturnsLastWritten
  intro s rest i hi
  exact ⟨fun hp => step_replyByte hp (act_bufRead (buf := .a) hi), fun hp => step_replyByte hp (act_bufRead (buf := .b) hi)⟩

/-- Settles O46: the host sees the byte of `DST` exactly after `OK` and below `LENO`. -/
theorem outputReadReturnsOutputByte : Obligations.OutputReadReturnsOutputByte := by
  unfold Obligations.OutputReadReturnsOutputByte
  intro s rest i hi hp
  obtain ⟨hsome, hnone⟩ := step_replyByte hp (act_rdo hi)
  exact ⟨fun v hst hlt hv => hsome v ((outputByte_of_ok hst hlt).trans hv), fun h => hnone (outputByte_eq_none h)⟩

/-- Settles O47: a value of the register's width is taken; only the two length registers store it. -/
theorem registerWriteStoresLengthOrIsIgnored : Obligations.RegisterWriteStoresLengthOrIsIgnored := by
  unfold Obligations.RegisterWriteStoresLengthOrIsIgnored
  refine fun s rest v => ⟨fun hp hv => ?lena, fun hp hv => ?lenb, fun r hr hp hv => ?bytes, fun r hr hp hv => ?lens⟩
  case lena => exact (step_cons hp).trans (act_wrreg_len (buf := .a) hv)
  case lenb => exact (step_cons hp).trans (act_wrreg_len (buf := .b) hv)
  case bytes =>
    refine (step_cons hp).trans (act_wrreg_readOnly (by omega) ?_)
    obtain rfl | rfl := hr <;> exact hv
  case lens =>
    refine (step_cons hp).trans (act_wrreg_readOnly (by omega) ?_)
    obtain rfl | rfl := hr <;> exact hv

/-- Settles O48: each of the seven registers is read as it stands. -/
theorem registerReadReturnsWholeRegister : Obligations.RegisterReadReturnsWholeRegister := by
  unfold Obligations.RegisterReadReturnsWholeRegister
  intro s rest r v hp h
  have hreg : readReg (s.setPending rest) r = some v := by
    obtain ⟨rfl, rfl⟩ | ⟨rfl, rfl⟩ | ⟨rfl, rfl⟩ | ⟨rfl, rfl⟩ | ⟨rfl, rfl⟩ | ⟨rfl, rfl⟩ | ⟨rfl, rfl⟩ := h <;> rfl
  exact (step_cons hp).trans (act_rdreg hreg)

/-- Settles O49: an admitted action answers a next state, which is no refusal. -/
theorem refusedExactlyWhenNotAdmitted : Obligations.RefusedExactlyWhenNotAdmitted := by
  unfold Obligations.RefusedExactlyWhenNotAdmitted
  intro s a rest hp
  rw [step_cons hp]
  obtain ⟨hwf, t, ht⟩ | ⟨hwf, hr⟩ := act_admitted_or_refused a (s.setPending rest)
  · rw [State.setPending_capIn] at hwf
    simp [ht, hwf]
  · exact iff_of_true hr hwf

/-- Settles O54: taking the action from the list keeps the invariant and what makes the action careful. -/
theorem carefulHostSeesNoFreeByte : Obligations.CarefulHostSeesNoFreeByte := by
  unfold Obligations.CarefulHostSeesNoFreeByte
  intro s a rest hinv hp hc
  rw [step_cons hp]
  exact act_careful (hinv.setPending rest) hc

end Sys2Proof.Machine
end

section
/-! Host scripts: a script is as many steps, `LOADA` and `LOADB` load an operand, `MOVOA` and `MOVOB` feed the output back
(30_encoding.md R59 to R63), and the first command after `RESET` (70_reset_and_hazards.md section 1). -/

namespace Sys2Proof.Machine

/-! ## Running a script -/

theorem runScript_cons {a : HostAction} {s t : State} (h : act a s = .next t) (as : List HostAction) :
    runScript (a :: as) s = runScript as t := by
  rw [runScript, h]

/-- A script that runs through has taken its first action and then the others. -/
theorem exists_act_of_runScript {a : HostAction} {as : List HostAction} {s t : State}
    (h : runScript (a :: as) s = .next t) : ∃ u, act a s = .next u ∧ runScript as u = .next t := by
  cases ha : act a s with
  | next u => exact ⟨u, rfl, runScript_cons ha as ▸ h⟩
  | fault f => cases f
  | refused r => simp [runScript, ha] at h

theorem runScript_append {as : List HostAction} {s t : State} (h : runScript as s = .next t) (bs : List HostAction) :
    runScript (as ++ bs) s = runScript bs t := by
  induction as generalizing s with
  | nil => cases h; rfl
  | cons a as ih =>
    obtain ⟨u, ha, hu⟩ := exists_act_of_runScript h
    rw [List.cons_append, runScript_cons ha, ih hu]

/-! ## A script as the steps of the machine -/

theorem run_succ (M : Host.Core) {s t : M.State} (h : M.step s = .next t) (k : Nat) : M.run (k + 1) s = M.run k t := by
  rw [Host.Core.run, h]

theorem guard_of_next {p : Prop} [Decidable p] {t u : State} {r : Refusal}
    (h : (if p then .next t else .refused r : Host.Outcome State Fault Refusal) = .next u) : p ∧ t = u := by
  split at h
  · cases h
    exact ⟨‹p›, rfl⟩
  · cases h

theorem replyByte_setPending (b : Option Byte) (s : State) (as : List HostAction) :
    replyByte b (s.setPending as) = (replyByte b s).setPending as := by
  cases b <;> rfl

theorem finish_setPending (r : Except CodecError (List Byte)) (s : State) (as : List HostAction) :
    finish r (s.setPending as) = (finish r s).setPending as := by
  cases r <;> rfl

/-- What stands in the list of pending actions makes no difference to an action. -/
theorem act_setPending {a : HostAction} {s t : State} (h : act a s = .next t) (as : List HostAction) :
    act a (s.setPending as) = .next (t.setPending as) := by
  cases a with
  | reset => cases h; rfl
  | wra i v | wrb i v =>
    obtain ⟨hi, rfl⟩ := guard_of_next h
    exact if_pos hi
  | rda i | rdb i | rdo i =>
    obtain ⟨hi, rfl⟩ := guard_of_next h
    exact (if_pos hi).trans (congrArg Host.Outcome.next (replyByte_setPending _ s as))
  | wrreg r v =>
    match r with
    | 0 =>
      rw [act_wrreg_cmd, writeCmd_eq] at h ⊢
      obtain ⟨hv, rfl⟩ := guard_of_next h
      rw [if_pos hv]
      cases decode (BitVec.ofNat 8 v) with
      | ok i =>
        exact congrArg Host.Outcome.next
          (finish_setPending (resultIn i s).1 { s with cmd := BitVec.ofNat 8 v, draws := (resultIn i s).2 } as)
      | error e => rfl
    | 1 | 2 | 3 | 4 | 5 | 6 =>
      obtain ⟨hv, rfl⟩ := guard_of_next h
      exact if_pos hv
    | n + 7 => cases h
  | rdreg r =>
    cases hr : readReg s r with
    | none => rw [act, actRdreg, hr] at h; cases h
    | some v =>
      rw [act_rdreg hr] at h
      cases h
      exact act_rdreg (s := s.setPending as) hr

/-- Settles O58, by induction on the script: each action finds the ones behind it in the list, and leaves them there. -/
theorem scriptRunsStepByStep : Obligations.ScriptRunsStepByStep := by
  unfold Obligations.ScriptRunsStepByStep
  intro as rest
  induction as with
  | nil => exact fun s t h => h
  | cons a as ih =>
    intro s t h
    obtain ⟨u, ha, hu⟩ := exists_act_of_runScript h
    obtain ⟨hpend, -⟩ : u.pending = rest ∧ _ := act_frame ha
    have hstep : step (s.setPending (a :: as ++ rest)) = .next (u.setPending (as ++ rest)) :=
      (step_cons rfl).trans (act_setPending ha (as ++ rest))
    have hsame : { u with pending := rest } = u := by rw [← hpend]
    exact (run_succ Sys2Proof.core (s := s.setPending (a :: as ++ rest)) hstep as.length).trans (ih u t (hsame.symm ▸ hu))

/-! ## Writing a sequence to a buffer -/

/-- The bytes of a sequence written to a memory from an index on. -/
def memWrites (m : Memory) (start : Nat) : List Byte → Memory
  | [] => m
  | v :: rest => memWrites (memWrite m start v) (start + 1) rest

/-- Only the indices of the sequence change. -/
theorem memRead_memWrites_outside {m : Memory} {start j : Nat} (xs : List Byte)
    (hj : j < start ∨ start + xs.length ≤ j) : memRead (memWrites m start xs) j = memRead m j := by
  induction xs generalizing m start with
  | nil => rfl
  | cons v xs ih =>
    rw [List.length_cons] at hj
    rw [memWrites, ih (by omega), memRead_memWrite_other m v (by omega)]

theorem memRead_memWrites_inside {m : Memory} {xs : List Byte} {start k : Nat} (hk : k < xs.length) :
    memRead (memWrites m start xs) (start + k) = xs[k]? := by
  induction xs generalizing m start k with
  | nil => cases hk
  | cons v xs ih =>
    rw [memWrites]
    cases k with
    | zero => exact (memRead_memWrites_outside xs (by omega)).trans (memRead_memWrite_same m start v)
    | succ k =>
      rw [List.getElem?_cons_succ, Nat.add_comm k, ← Nat.add_assoc]
      exact ih (Nat.lt_of_succ_lt_succ hk)

/-- From index 0 on the memory holds the sequence, and above it what it held before. -/
theorem memRead_memWrites_zero (m : Memory) (xs : List Byte) (j : Nat) :
    memRead (memWrites m 0 xs) j = if j < xs.length then xs[j]? else memRead m j := by
  split
  next hj => simpa using memRead_memWrites_inside (m := m) (start := 0) hj
  next hj => exact memRead_memWrites_outside xs (by omega)

section Buffers

variable (s : State) (buf : Buf)

@[simp] theorem State.src_setSrc (m : Memory) : (s.setSrc m buf).src buf = m := by cases buf <;> rfl

@[simp] theorem State.setSrc_setSrc (m m' : Memory) : (s.setSrc m buf).setSrc m' buf = s.setSrc m' buf := by
  cases buf <;> rfl

@[simp] theorem State.setSrc_src : s.setSrc (s.src buf) buf = s := by cases buf <;> rfl

@[simp] theorem State.setSrc_capIn (m : Memory) : (s.setSrc m buf).capIn = s.capIn := by cases buf <;> rfl

@[simp] theorem outputByte_setSrc (m : Memory) (i : Nat) : outputByte i (s.setSrc m buf) = outputByte i s := by
  cases buf <;> rfl

@[simp] theorem State.src_reply (r : Reply) : (s.reply r).src buf = s.src buf := by cases buf <;> rfl

@[simp] theorem outputByte_reply (r : Reply) (i : Nat) : outputByte i (s.reply r) = outputByte i s := rfl

end Buffers

/-- Return several values to the host, in this order. -/
def State.replyAll (s : State) (rs : List Reply) : State := { s with replies := s.replies ++ rs }

theorem State.replyAll_nil (s : State) : s.replyAll [] = s := by
  rw [State.replyAll, List.append_nil]

theorem State.replyAll_cons (s : State) (r : Reply) (rs : List Reply) :
    s.replyAll (r :: rs) = (s.reply r).replyAll rs := by
  simp [State.replyAll, State.reply]

theorem State.replyAll_setSrc (s : State) (m : Memory) (buf : Buf) (rs : List Reply) :
    (s.setSrc m buf).replyAll rs = (s.replyAll rs).setSrc m buf := by
  cases buf <;> rfl

/-! ## `LOADA` and `LOADB` -/

theorem runScript_bufWrites {s : State} {buf : Buf} {start : Nat} {xs : List Byte} (h : start + xs.length ≤ s.capIn) :
    runScript (bufWrites buf start xs) s = .next (s.setSrc (memWrites (s.src buf) start xs) buf) := by
  induction xs generalizing s start with
  | nil => simp [bufWrites, runScript, memWrites]
  | cons v xs ih =>
    rw [List.length_cons] at h
    rw [bufWrites, runScript_cons (act_bufWrite (by omega) v), ih (by rw [State.setSrc_capIn]; omega)]
    simp [memWrites]

/-- The last line of a script sets the length register. -/
theorem runScript_then_len {as : List HostAction} {s t : State} (buf : Buf) {n : Nat} (h : runScript as s = .next t)
    (hn : n ≤ t.capIn) : runScript (as ++ [.wrreg (lenReg buf) n]) s = .next (t.setLen n buf) := by
  rw [runScript_append h, runScript_cons (act_wrreg_len (lt_two_pow_lenW (by omega)))]
  rfl

theorem loadScript_runs {s : State} {xs : List Byte} (buf : Buf) (h : xs.length ≤ s.capIn) :
    ∃ script, loadScript s.capIn buf xs = some script ∧
      runScript script s = .next ((s.setSrc (memWrites (s.src buf) 0 xs) buf).setLen xs.length buf) :=
  ⟨_, if_pos h, runScript_then_len buf (runScript_bufWrites (by omega)) (by rwa [State.setSrc_capIn])⟩

theorem holds_memWrites (m : Memory) (xs : List Byte) : Holds (memWrites m 0 xs) xs := fun i hi => by
  rw [memRead_memWrites_zero, if_pos hi]

/-- Settles O59: the writes put the sequence into the buffer one byte after the other, and the last line sets the length. -/
theorem loadScriptLoadsOperand : Obligations.LoadScriptLoadsOperand := by
  unfold Obligations.LoadScriptLoadsOperand
  refine fun s xs => ⟨fun hfit => ?fits, fun hover => ⟨if_neg (by omega), if_neg (by omega)⟩⟩
  case fits =>
    have hload : ∀ buf, Holds (memWrites (s.src buf) 0 xs) xs ∧
        ∀ j, xs.length ≤ j → memRead (memWrites (s.src buf) 0 xs) j = memRead (s.src buf) j :=
      fun buf => ⟨holds_memWrites _ xs, fun j hj => memRead_memWrites_outside xs (by omega)⟩
    obtain ⟨scriptA, hsa, hra⟩ := loadScript_runs .a hfit
    obtain ⟨scriptB, hsb, hrb⟩ := loadScript_runs .b hfit
    exact ⟨⟨scriptA, _, hsa, hra, hload .a⟩, scriptB, _, hsb, hrb, hload .b⟩

/-! ## `MOVOA` and `MOVOB` -/

/-- The bytes the host would read, where each of them is specified. -/
theorem exists_outputRange {s : State} {start n : Nat} (h : ∀ k, k < n → ∃ v, outputByte (start + k) s = some v) :
    ∃ xs, outputRange start n s = some xs ∧ xs.length = n ∧ ∀ k, k < n → outputByte (start + k) s = xs[k]? := by
  induction n generalizing start with
  | zero => exact ⟨[], rfl, rfl, fun k hk => absurd hk (Nat.not_lt_zero k)⟩
  | succ n ih =>
    have hshift : ∀ k, start + 1 + k = start + (k + 1) := fun k => by omega
    obtain ⟨v, hv⟩ : ∃ v, outputByte start s = some v := h 0 (by omega)
    obtain ⟨xs, hxs, hlen, hget⟩ := ih (start := start + 1) fun k hk => hshift k ▸ h (k + 1) (by omega)
    refine ⟨v :: xs, by rw [outputRange, hv, hxs], by rw [List.length_cons, hlen], fun k hk => ?_⟩
    cases k with
    | zero => exact hv
    | succ k => exact hshift k ▸ hget k (by omega)

/-- The copies read each byte of the output and write it to the buffer: the reads draw nothing, the writes leave the output. -/
theorem runScript_moveWrites {s : State} {buf : Buf} {start : Nat} {xs : List Byte} (hcap : start + xs.length ≤ s.capIn)
    (hout : ∀ k, k < xs.length → outputByte (start + k) s = xs[k]?) :
    runScript (moveWrites buf start xs) s =
      .next ((s.replyAll (xs.map Reply.byte)).setSrc (memWrites (s.src buf) start xs) buf) := by
  induction xs generalizing s start with
  | nil => rw [List.map_nil, State.replyAll_nil, memWrites, State.setSrc_src]; rfl
  | cons v xs ih =>
    rw [List.length_cons] at hcap
    have hv : outputByte start s = some v := hout 0 (by simp)
    have hread : act (.rdo start) s = .next (s.reply (.byte v)) := by
      rw [act_rdo (by unfold Config.capOut; omega), hv, replyByte_some]
    have hwrite := act_bufWrite (s := s.reply (.byte v)) (buf := buf) (i := start) (by rw [State.reply_capIn]; omega) v
    rw [moveWrites, runScript_cons hread, runScript_cons hwrite, ih]
    · rw [State.replyAll_setSrc, State.setSrc_setSrc, State.src_setSrc, State.src_reply, List.map_cons,
        State.replyAll_cons, memWrites]
    · rw [State.setSrc_capIn, State.reply_capIn]
      omega
    · intro k hk
      rw [outputByte_setSrc, outputByte_reply, Nat.add_assoc, Nat.add_comm 1 k]
      exact hout (k + 1) (by simpa using hk)

theorem moveScript_runs {s : State} (hinv : Inv s) (buf : Buf) (h : s.leno ≤ s.capIn) :
    ∃ script m rs, moveScript buf s = some script ∧
      runScript script s = .next (((s.replyAll rs).setSrc m buf).setLen s.leno buf) ∧
      ∀ j, memRead m j = if j < s.leno then memRead s.dst j else memRead (s.src buf) j := by
  obtain ⟨xs, hxs, hlen, hget⟩ := exists_outputRange (s := s) (start := 0) (n := s.leno) fun k hk => by
    obtain ⟨hout, v, hv⟩ := hinv.outputByte_below hk
    exact ⟨v, by rw [Nat.zero_add, hout, hv]⟩
  have hmove := runScript_moveWrites (s := s.reply (.len s.leno)) (buf := buf) (start := 0) (xs := xs)
    (by rw [State.reply_capIn]; omega) (fun k hk => hget k (hlen ▸ hk))
  rw [← State.replyAll_cons, State.src_reply] at hmove
  refine ⟨.rdreg 4 :: (moveWrites buf 0 xs ++ [.wrreg (lenReg buf) s.leno]),
    memWrites (s.src buf) 0 xs, .len s.leno :: xs.map Reply.byte, by rw [moveScript, if_pos h, hxs], ?_, fun j => ?_⟩
  · rw [runScript_cons (act_rdreg (v := .len s.leno) rfl)]
    exact runScript_then_len buf hmove (by rwa [State.setSrc_capIn])
  · rw [memRead_memWrites_zero, hlen]
    split
    next hj =>
      obtain ⟨hout, -⟩ := hinv.outputByte_below hj
      rw [← hout, ← hget j hj, Nat.zero_add]
    next => rfl

/-- Settles O60: below `LENO` every byte of the output is specified, so the host's reads return them. -/
theorem moveScriptFeedsOutputBack : Obligations.MoveScriptFeedsOutputBack := by
  unfold Obligations.MoveScriptFeedsOutputBack
  refine fun s hinv => ⟨fun hfit => ⟨?_, ?_⟩, fun hover => ⟨if_neg (by omega), if_neg (by omega)⟩⟩
  · exact moveScript_runs hinv .a hfit
  · exact moveScript_runs hinv .b hfit

/-! ## The first command after `RESET` -/

/-- Settles O43: after a reset the operands are empty sequences, which every command's function accepts. -/
theorem firstCommandAfterReset : Obligations.FirstCommandAfterReset := by
  unfold Obligations.FirstCommandAfterReset
  have hreset : ∀ s, act .reset s = .next (resetBlock s) := fun _ => rfl
  refine fun s => ⟨fun i => ?command, ?reserved⟩
  case command =>
    have hops : HasOperands i ((resetBlock s).setCmd (encode i)) [] [] :=
      ⟨Nat.zero_le _, rfl, holds_nil _, fun _ => ⟨Nat.zero_le _, rfl, holds_nil _⟩⟩
    have hempty : codecResult i [] [] = .ok [] := by cases i <;> rfl
    have hcmd := (act_wrreg_word (encode i) (resetBlock s)).trans (writeCmd_of_decode (decode_encode i) _)
    rw [runScript_cons (hreset s), runScript_cons (hcmd.trans (exec_completes hops hempty rfl))]
    rfl
  case reserved =>
    have hcmd : act (.wrreg 0 0) (resetBlock s) = _ := (act_wrreg_word 0x00#8 _).trans (writeCmd_refused rfl _)
    rw [runScript_cons (hreset s), runScript_cons hcmd]
    rfl

end Sys2Proof.Machine
end
